-- ==== Sys2Proof/Word.lean ====
section
/-!
DEFINITION. The word types of the cute-vm CORE and the operand width (00_scope.md R8, R10, R15).
-/

namespace Sys2Proof

/-- One byte of memory, an opcode byte or an output byte. -/
abbrev Byte := BitVec 8

/-- A 16-bit stack slot, instruction word or stack control field (R8 `SLOT_W`, `INSN_W`, R26). -/
abbrev Half := BitVec 16

/-- A 32-bit address or wide operand (R8 `ADDR_W`, `WORD_WIDE`). -/
abbrev Word := BitVec 32

/-- The operand width `w` of R15: 16 bits, or 32 bits with `SHORT`. -/
inductive Width where
  /-- 16 bits, the default. -/
  | narrow
  /-- 32 bits, with the `SHORT` flag. -/
  | wide
deriving DecidableEq, Repr

/-- `n = w / 8`, the operand width in bytes (R15). -/
def Width.bytes : Width → Nat
  | .narrow => 2
  | .wide => 4

end Sys2Proof
end

