-- ==== Sys2Proof/Syntax.lean ====
section
/-!
DEFINITION. The instructions of the cute-vm CORE as syntax: one constructor per row of
spec/opcode_table.json (30_encoding.md R100 to R109).
-/

namespace Sys2Proof

/-- The status-flag byte `F`, its eight bits by name (R102). The reserved bits are kept so that no
bit of an encoding is lost; nothing reads them (R103). -/
structure Flags where
  /-- `KEEP`, bit 0: a pop is non-destructive. -/
  keep : Bool := false
  /-- `RETURN`, bit 1: the flag-selected stack is the return stack. -/
  ret : Bool := false
  /-- `SHORT`, bit 2: operand width 32 bits instead of 16. -/
  short : Bool := false
  /-- `IF_EQUAL`, bit 3. -/
  ifEqual : Bool := false
  /-- `IF_GREATER`, bit 4. -/
  ifGreater : Bool := false
  /-- `IF_LESS`, bit 5. -/
  ifLess : Bool := false
  /-- Bits 7:6, reserved and ignored (R103). -/
  reserved : BitVec 2 := 0
deriving DecidableEq, Repr

/-- An instruction: the triple `(op, F, imm)` of R109, `imm` present only for `Lit`. -/
inductive Instr where
  /-- `Nop`, opcode 0x00 (R170). -/
  | nop (f : Flags)
  /-- `Lit`, opcode 0x01, with its immediate: 16 bits, or 32 bits with `SHORT` (R108, R171). -/
  | lit (f : Flags) (imm : Word)
  /-- `Dup`, opcode 0x02 (R173). -/
  | dup (f : Flags)
  /-- `Over`, opcode 0x03 (R175); Mathlib reserves the word `over`. -/
  | ovr (f : Flags)
  /-- `Str`, opcode 0x04 (R190). -/
  | str (f : Flags)
  /-- `Load`, opcode 0x05 (R192). -/
  | load (f : Flags)
  /-- `Push`, opcode 0x06 (R177). -/
  | push (f : Flags)
  /-- `Drop`, opcode 0x07 (R179). -/
  | drop (f : Flags)
  /-- `Jsr`, opcode 0x08 (R200, R201). -/
  | jsr (f : Flags)
  /-- `Cmp`, opcode 0x09 (R205). -/
  | cmp (f : Flags)
  /-- `Halt`, opcode 0x0A (R208). -/
  | halt (f : Flags)
deriving DecidableEq, Repr

/-- The status-flag byte of an instruction. -/
def Instr.flags : Instr → Flags
  | .nop f => f
  | .lit f _ => f
  | .dup f => f
  | .ovr f => f
  | .str f => f
  | .load f => f
  | .push f => f
  | .drop f => f
  | .jsr f => f
  | .cmp f => f
  | .halt f => f

end Sys2Proof
end

