-- ==== Sys2Proof/WellFormed.lean ====
section
/-!
DEFINITION. Which terms of `Instr` stand for an encoding (30_encoding.md R108): the one check is
that the immediate of a `Lit` without `SHORT` fits in its 16 bits.
-/

namespace Sys2Proof

/-- An immediate fits the width its instruction encodes it in: 16 bits without `SHORT` (R108). -/
def immFits (f : Flags) (imm : Word) : Bool := f.short || decide (imm.toNat < 2 ^ 16)

/-- Well-formed instructions: those the encoding of R100 can express. -/
def Instr.wf : Instr → Bool
  | .lit f imm => immFits f imm
  | .nop _ => true
  | .dup _ => true
  | .ovr _ => true
  | .str _ => true
  | .load _ => true
  | .push _ => true
  | .drop _ => true
  | .jsr _ => true
  | .cmp _ => true
  | .halt _ => true

end Sys2Proof
end

