-- ==== Sys2Proof/Decode.lean ====
section
/-!
DEFINITION. The decoder, total on any bytes, and after it the encoder (30_encoding.md R100 to R109).
-/

namespace Sys2Proof

/-- Why bytes do not decode. -/
inductive DecodeError where
  /-- The opcode byte is one of 0x0B to 0xFF (R106). -/
  | illegalOpcode (op : Byte)
  /-- Fewer bytes than the instruction's length (R101). -/
  | truncated
deriving DecidableEq, Repr

/-- The status-flag byte, bit by bit (R102). -/
def Flags.ofByte (b : Byte) : Flags :=
  { keep := b.getLsbD 0
    ret := b.getLsbD 1
    short := b.getLsbD 2
    ifEqual := b.getLsbD 3
    ifGreater := b.getLsbD 4
    ifLess := b.getLsbD 5
    reserved := b.extractLsb' 6 2 }

/-- The status-flag byte of `Flags`, bit by bit (R102). -/
def Flags.toByte (f : Flags) : Byte :=
  f.reserved ++ BitVec.ofBool f.ifLess ++ BitVec.ofBool f.ifGreater ++ BitVec.ofBool f.ifEqual ++
    BitVec.ofBool f.short ++ BitVec.ofBool f.ret ++ BitVec.ofBool f.keep

/-- The opcode map of R105: the instruction of an opcode byte, with its flags and, for `Lit`, its
immediate. `none` for the illegal bytes 0x0B to 0xFF (R106). -/
def Instr.ofOpcode (op : Byte) (f : Flags) (imm : Word) : Option Instr :=
  match op.toNat with
  | 0x00 => some (.nop f)
  | 0x01 => some (.lit f imm)
  | 0x02 => some (.dup f)
  | 0x03 => some (.ovr f)
  | 0x04 => some (.str f)
  | 0x05 => some (.load f)
  | 0x06 => some (.push f)
  | 0x07 => some (.drop f)
  | 0x08 => some (.jsr f)
  | 0x09 => some (.cmp f)
  | 0x0A => some (.halt f)
  | _ => none

/-- A little-endian 16-bit value from its two bytes, the one at the lower address first (R78). -/
def halfOfBytes (lo hi : Byte) : Half := hi ++ lo

/-- A 32-bit value from its low and high halves (R67). -/
def wordOfHalves (lo hi : Half) : Word := hi ++ lo

/-- The decoder: one instruction from the front of a byte sequence, with the bytes after it. The
length is told from the first word alone (R101); a `Lit` takes its immediate from the bytes after
its word, little-endian (R100, R108). -/
def decode : List Byte → Except DecodeError (Instr × List Byte)
  | op :: fb :: rest =>
    match Instr.ofOpcode op (Flags.ofByte fb) 0 with
    | none => .error (.illegalOpcode op)
    | some (.lit f _) =>
      if f.short then
        match rest with
        | b0 :: b1 :: b2 :: b3 :: rest' =>
          .ok (.lit f (wordOfHalves (halfOfBytes b0 b1) (halfOfBytes b2 b3)), rest')
        | _ => .error .truncated
      else
        match rest with
        | b0 :: b1 :: rest' => .ok (.lit f (wordOfHalves (halfOfBytes b0 b1) 0), rest')
        | _ => .error .truncated
    | some i => .ok (i, rest)
  | _ => .error .truncated

/-- The length of an instruction in bytes (R101): 2, but 4 or 6 for a `Lit`. -/
def Instr.length : Instr → Nat
  | .lit f _ => if f.short then 6 else 4
  | .nop _ => 2
  | .dup _ => 2
  | .ovr _ => 2
  | .str _ => 2
  | .load _ => 2
  | .push _ => 2
  | .drop _ => 2
  | .jsr _ => 2
  | .cmp _ => 2
  | .halt _ => 2

/-! ## The encoder -/

/-- The opcode byte of an instruction (R105). -/
def Instr.opcodeByte : Instr → Byte
  | .nop _ => 0x00
  | .lit _ _ => 0x01
  | .dup _ => 0x02
  | .ovr _ => 0x03
  | .str _ => 0x04
  | .load _ => 0x05
  | .push _ => 0x06
  | .drop _ => 0x07
  | .jsr _ => 0x08
  | .cmp _ => 0x09
  | .halt _ => 0x0A

/-- The two bytes of a 16-bit value, little-endian (R78). -/
def bytesOfHalf (h : Half) : List Byte := [h.extractLsb' 0 8, h.extractLsb' 8 8]

/-- The immediate halves an instruction carries after its word: none, or for a `Lit` one half, two
with `SHORT`, low half first (R100). -/
def Instr.immHalves : Instr → List Half
  | .lit f imm =>
    if f.short then [imm.extractLsb' 0 16, imm.extractLsb' 16 16] else [imm.extractLsb' 0 16]
  | .nop _ => []
  | .dup _ => []
  | .ovr _ => []
  | .str _ => []
  | .load _ => []
  | .push _ => []
  | .drop _ => []
  | .jsr _ => []
  | .cmp _ => []
  | .halt _ => []

/-- The 16-bit words of an instruction: `op | (Fbits << 8)`, then the immediate (R120). -/
def encodeWords (i : Instr) : List Half :=
  (i.flags.toByte ++ i.opcodeByte : Half) :: i.immHalves

/-- The bytes of an instruction as the memory holds them, the first at the lowest address (R78). -/
def encode (i : Instr) : List Byte := (encodeWords i).flatMap bytesOfHalf

/-! ## The host's view: a table word, its bits numbered from the first word's least significant -/

/-- The six bytes (the longest instruction, R101) of an instruction whose bits are the low `nbits`
of `w`, every bit above them 0. With 16-bit little-endian words, byte `k` is bits `8k+7..8k`. -/
def tableBytes (nbits w : Nat) : List Byte :=
  (List.range 6).map fun k => BitVec.ofNat 8 (w % 2 ^ nbits / 2 ^ (8 * k))

/-- The instruction the decoder reads from a table word. -/
def decodeTableWord (nbits w : Nat) : Option Instr :=
  match decode (tableBytes nbits w) with
  | .ok (i, _) => some i
  | .error _ => none

end Sys2Proof
end

