-- ==== Sys2Proof/Config.lean ====
section
/-!
DEFINITION. The two open parameters of the machine (00_scope.md R9; 92_eei_decisions.md P1, P2)
and the one choice of them that `State.reset` makes. The machine's own fixed numbers (R8) are in
Machine/Layout.lean.
-/

namespace Sys2Proof

/-- `MEM_SIZE` and `MEM_WIN_HI` (R9). "A model takes them as arguments": each state carries the
pair it was booted with, and no step changes it (R36; log 1). -/
structure Params where
  /-- `MEM_SIZE`, the capacity of the memory in bytes (R32). -/
  memSize : Nat
  /-- `MEM_WIN_HI`, the last address of the memory window, inclusive (R61). -/
  memWinHi : Nat
deriving DecidableEq, Repr

/-- The constraints R9 puts on the two parameters:
`MIN_MEM <= MEM_SIZE <= 2^32` and `MEM_SIZE - 1 <= MEM_WIN_HI <= 0xFFFF_FFFF`. -/
abbrev Params.valid (p : Params) : Prop :=
  0x600 ≤ p.memSize ∧ p.memSize ≤ 2 ^ 32 ∧
    p.memSize - 1 ≤ p.memWinHi ∧ p.memWinHi ≤ 0xFFFFFFFF

/-- The parameters of `State.reset`: those of the test machine of 95_test_vectors.md section 0.
DESIGN CHOICE, unsafe for a claim about the one machine `State.reset` only (log 1). -/
def Params.testMachine : Params := { memSize := 0x2000, memWinHi := 0x1FFF }

end Sys2Proof
end

