-- ==== Sys2Proof/Machine/Layout.lean ====
section
/-!
DEFINITION. The fixed numbers of the CORE (00_scope.md R8): the I/O window and its register map, the
memory window, the stack bound, the reset addresses and the cause codes.
-/

namespace Sys2Proof.Machine

/-- `IO_LO` (R8, R61). -/
def ioLo : Nat := 0x00000000

/-- `IO_HI`, inclusive (R8, R61). -/
def ioHi : Nat := 0x000003FF

/-- `MEM_LO` (R8, R61). -/
def memLo : Nat := 0x00000400

/-- `MIN_MEM`, the smallest memory accepted (R8, R276). -/
def minMem : Nat := 0x600

/-- The largest memory accepted, the whole address space (R276). -/
def maxMem : Nat := 2 ^ 32

/-- `LOAD_BASE`, where the program is loaded and starts (R8, R272). -/
def loadBase : Word := 0x00000600

/-- `PBASE_RESET` (R8). -/
def pbaseReset : Half := 0x0400

/-- `RBASE_RESET` (R8). -/
def rbaseReset : Half := 0x0500

/-- `STACK_BYTES`, the bound of each stack: 256 bytes, 128 slots (R8, R28). -/
def stackBytes : Nat := 256

/-- The registers and ports of the I/O window (R70). -/
inductive IoReg where
  /-- `PBASE`, the primary stack's base. -/
  | pbase
  /-- `POFF`, the primary stack's offset. -/
  | poff
  /-- `RBASE`, the return stack's base. -/
  | rbase
  /-- `ROFF`, the return stack's offset. -/
  | roff
  /-- `SWIREQ`, the software-interrupt-request port. -/
  | swireq
  /-- `OUT`, the output-data port. -/
  | out
  /-- `IPR`, the read-only mirror of `IP`. -/
  | ipr
  /-- `CRR`, the read-only mirror of `CR`. -/
  | crr
  /-- `JV`, the jump vector. -/
  | jv
  /-- `CAUSE`, the interrupt cause. -/
  | cause
  /-- `RA`, the captured return address. -/
  | ra
deriving DecidableEq, Repr

/-- The register at an address of the I/O window, by exact offset (R70); `none` where the window
holds no register (R74). -/
def IoReg.ofAddr (a : Nat) : Option IoReg :=
  match a with
  | 0x000 => some .pbase
  | 0x002 => some .poff
  | 0x004 => some .rbase
  | 0x006 => some .roff
  | 0x00C => some .swireq
  | 0x100 => some .out
  | 0x200 => some .ipr
  | 0x204 => some .crr
  | 0x300 => some .jv
  | 0x304 => some .cause
  | 0x308 => some .ra
  | _ => none

/-- The kinds of recoverable fault (R221, R230). -/
inductive FaultKind where
  /-- AlignmentFault. -/
  | align
  /-- BoundsFault. -/
  | bounds
  /-- UnmappedIoFault. -/
  | unmappedIo
  /-- UnmappedAddressFault. -/
  | unmappedAddr
deriving DecidableEq, Repr

/-- `CAUSE_<kind>`, the 31-bit cause code of a recoverable fault (R8, R221). -/
def FaultKind.code : FaultKind → Word
  | .align => 1
  | .bounds => 2
  | .unmappedIo => 3
  | .unmappedAddr => 4

end Sys2Proof.Machine
end

