-- ==== Sys2Proof/Machine/Memory.lean ====
section
/-!
DEFINITION. The memory `M` (20_memory.md R50 to R52): a list of (index, byte) pairs in one canonical
form, its byte read and write, and the raw little-endian accessors of any number of bytes.
-/

namespace Sys2Proof.Machine

/-- The memory: the bytes that differ from what an unlisted index reads as, indices rising. -/
abbrev Memory := List Host.Cell

/-- What an index that is not listed reads as: 0, the memory is "zero-initialized" (R32). -/
def Memory.unlisted : Byte := 0

/-- `M[a]`, one byte. -/
def Memory.read : Memory → Nat → Byte
  | [], _ => Memory.unlisted
  | c :: m, a => if c.1 = a then c.2 else Memory.read m a

/-- A memory with the byte at `a`, which no entry of `m` lists, set to `b`; the canonical form
lists no byte equal to an unlisted one. -/
def Memory.insert (m : Memory) (a : Nat) (b : Byte) : Memory :=
  if b = Memory.unlisted then m else (a, b) :: m

/-- `M[a] <- b`, one byte. -/
def Memory.write : Memory → Nat → Byte → Memory
  | [], a, b => Memory.insert [] a b
  | c :: m, a, b =>
    if a < c.1 then Memory.insert (c :: m) a b
    else if a = c.1 then Memory.insert m a b
    else c :: Memory.write m a b

/-- The canonical form: indices strictly rising, no entry equal to an unlisted byte. -/
abbrev Memory.wf (m : Memory) : Prop :=
  m.Pairwise (fun c d => c.1 < d.1) ∧ ∀ c ∈ m, c.2 ≠ Memory.unlisted

/-- Every listed byte lies in a memory of `size` bytes (R50). -/
abbrev Memory.within (size : Nat) (m : Memory) : Prop := ∀ c ∈ m, c.1 < size

/-- `MemRead(i, n)`: `n` bytes from index `i`, little-endian, no checks (R51). -/
def memRead (m : Memory) (i : Nat) : Nat → Nat
  | 0 => 0
  | n + 1 => (m.read i).toNat + 2 ^ 8 * memRead m (i + 1) n

/-- `MemWrite(i, n, v)`: the low `8n` bits of `v` at index `i`, little-endian, no checks (R52). -/
def memWrite (m : Memory) (i : Nat) : Nat → Nat → Memory
  | 0, _ => m
  | n + 1, v => memWrite (m.write i (BitVec.ofNat 8 v)) (i + 1) n (v / 2 ^ 8)

/-- Bytes written verbatim from index `i` on (the program load, R271). -/
def Memory.load (m : Memory) (i : Nat) : List Byte → Memory
  | [] => m
  | b :: bs => Memory.load (m.write i b) (i + 1) bs

/-- The `n` bytes from index `i` on. -/
def Memory.bytes (m : Memory) (i : Nat) : Nat → List Byte
  | 0 => []
  | n + 1 => m.read i :: Memory.bytes m (i + 1) n

end Sys2Proof.Machine
end

