-- ==== Sys2Proof/Machine/State.lean ====
section
/-!
DEFINITION. The whole state of the machine (10_state.md R20 to R37), why a step can stop, and the
state after reset (R35, 70_reset_and_hazards.md R270).
-/

namespace Sys2Proof.Machine

/-- The two stacks (R26). -/
inductive StackId where
  /-- `P`, the primary (operand) stack. -/
  | P
  /-- `R`, the return stack. -/
  | R
deriving DecidableEq, Repr

/-- `S[t]`: the two control fields of a stack (R26); its slots are bytes of the memory (R27). -/
structure Stack where
  /-- `S[t].base`, the memory index of slot 0. -/
  base : Half
  /-- `S[t].off`, the depth in bytes. -/
  off : Half
deriving DecidableEq, Repr

/-- `CR`, the condition register (R23). -/
structure CondReg where
  /-- `CR.EQ`. -/
  eq : Bool
  /-- `CR.GT`. -/
  gt : Bool
  /-- `CR.LT`. -/
  lt : Bool
deriving DecidableEq, Repr

/-- The registers of the interrupt controller (R30). -/
structure Sic where
  /-- `SIC.JV`, the jump vector. -/
  jv : Word
  /-- `SIC.CAUSE`, the exception flag in bit 31 and the cause code in bits 30:0. -/
  cause : Word
  /-- `SIC.RA`, the return address captured at interrupt entry. -/
  ra : Word
deriving DecidableEq, Repr

/-- The reason and diagnostic of a fatal fault (R34, R232). -/
inductive FatalInfo where
  /-- InvalidOpcode, with the address `IP0` and the opcode byte. -/
  | invalidOpcode (ip : Word) (opcode : Byte)
  /-- StackOverflow, with the stack and the address `IP0`. -/
  | stackOverflow (stack : StackId) (ip : Word)
deriving DecidableEq, Repr

/-- `run`, the run state (R34). -/
inductive RunState where
  /-- `Running`. -/
  | running
  /-- `Halted`, by `Halt`. -/
  | halted
  /-- `Fatal(reason, info)`, by a fatal fault. -/
  | fatal (info : FatalInfo)
deriving DecidableEq, Repr

/-- The state of the machine. -/
structure State where
  /-- `IP` (R21). -/
  ip : Word
  /-- `CR` (R23). -/
  cr : CondReg
  /-- `S[P]` (R26). -/
  primary : Stack
  /-- `S[R]` (R26). -/
  ret : Stack
  /-- The SIC registers (R30). -/
  sic : Sic
  /-- `pending`, the interrupt-pending latch (R31). -/
  pending : Bool
  /-- `out_ready`, the output handshake flag (R33). -/
  outReady : Bool
  /-- `outq`, the bytes written to the output port and not yet emitted, oldest first (R33). -/
  outq : List Byte
  /-- `output_trace`, the bytes emitted, oldest first (R33, R243). -/
  outputTrace : List Byte
  /-- `run` (R34). -/
  run : RunState
  /-- Whether the host has stopped the CORE by the input `stop` (60_exceptions.md R244,
  70_reset_and_hazards.md R282); `run` has no value for it (R34; log 5). -/
  stopped : Bool
  /-- `M` (R32). -/
  mem : Memory
  /-- `MEM_SIZE` and `MEM_WIN_HI`, fixed at boot (R9, R36; log 1). -/
  params : Params
deriving DecidableEq, Repr

/-- Why no agent of the machine can take a step. Only the step function raises these; no instruction
does. All are safe: the machine has no next state there (log 4). -/
inductive Fault where
  /-- `run = Halted` and `outq` is empty: the run is complete (R34, R164). Raised by the step. Safe. -/
  | halted
  /-- `run = Fatal(info)` and `outq` is empty (R34, R164). Raised by the step. Safe. -/
  | fatal (info : FatalInfo)
  /-- `out_ready = 0` and `outq` is empty: the CORE holds and no device step is enabled (R163, R242,
  R243); no run from boot reaches it. Raised by the step. Safe. -/
  | held
  /-- The host has stopped the running CORE and `outq` is empty (R164, R282; log 5). Raised by the step.
  Safe. -/
  | stopped
deriving DecidableEq, Repr

/-- Why an instruction has no meaning. -/
inductive Refusal where
  /-- The instruction has no meaning in this model: no arm answers so. Safe. -/
  | notModelled (mnemonic : String)
deriving DecidableEq, Repr

/-- The reset state of a machine with parameters `p` and an empty program image (R35, R270). -/
def State.initial (p : Params) : State :=
  { ip := loadBase
    cr := { eq := false, gt := false, lt := false }
    primary := { base := pbaseReset, off := 0 }
    ret := { base := rbaseReset, off := 0 }
    sic := { jv := 0, cause := 0, ra := 0 }
    pending := false
    outReady := true
    outq := []
    outputTrace := []
    run := .running
    stopped := false
    mem := []
    params := p }

/-- The machine right after reset, with no program loaded (log 1, log 2). -/
def State.reset : State := State.initial Params.testMachine

end Sys2Proof.Machine
end

