-- ==== Sys2Proof/Machine/Ops.lean ====
section
/-!
DEFINITION. The named operations over the state: the stacks' control fields, raising an interrupt and
taking it, setting `IP`, stopping, and the guarded memory accessors.
-/

namespace Sys2Proof.Machine

/-! ## The stacks' control fields (R26) -/

/-- `other(t)` (R11). -/
def StackId.other : StackId → StackId
  | .P => .R
  | .R => .P

/-- `S[t]`. -/
def State.stack (s : State) : StackId → Stack
  | .P => s.primary
  | .R => s.ret

/-- `S[t] <- k`. -/
def State.setStack (s : State) (t : StackId) (k : Stack) : State :=
  match t with
  | .P => { s with primary := k }
  | .R => { s with ret := k }

/-- `S[t].base <- b` (R71). -/
def State.setBase (s : State) (t : StackId) (b : Half) : State :=
  s.setStack t { base := b, off := (s.stack t).off }

/-- `S[t].off <- o` (R71, R131, R133). -/
def State.setOff (s : State) (t : StackId) (o : Half) : State :=
  s.setStack t { base := (s.stack t).base, off := o }

/-- `M <- m`, the memory after a write. -/
def State.setMem (s : State) (m : Memory) : State := { s with mem := m }

/-! ## Raising and taking an interrupt -/

/-- `gen_int(cause, is_exception)` (R222): the cause with the exception flag in the top bit, and the
pending latch set; nothing else. -/
def genInt (cause : Word) (isException : Bool) (s : State) : State :=
  { s with
    sic := { s.sic with
      cause := (if isException then 0x80000000 else 0) ||| (cause &&& 0x7FFFFFFF) }
    pending := true }

/-- `raise Fault(kind)` (R14, R222). -/
def raiseFault (k : FaultKind) (s : State) : State := genInt k.code true s

/-- `raise SoftwareInterrupt(v)` (R14, R222). -/
def raiseSoftwareInterrupt (v : Word) (s : State) : State := genInt v false s

/-- An address with bit 0 cleared (R151, R160). -/
def clearBit0 (v : Word) : Word := v &&& 0xFFFFFFFE

/-- Taking an interrupt (R226): `store_ret()`, `jmp()`, clear `pending`. Everything else is
unchanged: no mode, no mask, no second saved register exists. -/
def takeInterrupt (s : State) : State :=
  { s with
    sic := { s.sic with ra := s.ip }
    ip := clearBit0 s.sic.jv
    pending := false }

/-- The interrupt check at the start of a cycle (R151 step 1, R226). -/
def interruptEntry (s : State) : State := if s.pending then takeInterrupt s else s

/-- `SetIP(v)` (R160): the one way `Jsr` sets `IP`. It is also the return from an interrupt: there is
no return instruction (R236), the last instruction of the sequence `IRet` is a `Jsr`. -/
def setIp (v : Word) (s : State) : State :=
  if v.getLsbD 0 then { raiseFault .align s with ip := clearBit0 v } else { s with ip := v }

/-! ## Stopping -/

/-- `fatal <Reason>(info)` (R14, R232): `run` only. -/
def fatalStop (info : FatalInfo) (s : State) : State := { s with run := .fatal info }

/-- The result of a step of an instruction's pseudocode: it goes on with a value, or a fatal fault has
stopped the machine and the steps after it are not performed (R14, R232). -/
inductive Flow (α : Type) where
  /-- Go on with a value. -/
  | cont (a : α) (s : State)
  /-- Stopped by a fatal fault. -/
  | stop (s : State)
deriving DecidableEq, Repr

/-- Pseudocode in order (R16): the next line runs unless a fatal fault has stopped the machine. -/
def Flow.bind {α β : Type} (x : Flow α) (f : α → State → Flow β) : Flow β :=
  match x with
  | .cont a s => f a s
  | .stop s => .stop s

/-- The state an instruction's pseudocode leaves, stopped or not. -/
def Flow.state {α : Type} : Flow α → State
  | .cont _ s => s
  | .stop s => s

/-- An instruction's pseudocode as an outcome: always a next state (R231, R232). -/
def Flow.outcome {α : Type} (x : Flow α) : Host.Outcome State Fault Refusal := .next x.state

/-! ## The guarded accessors -/

/-- `GRead(i, n)` (R54): alignment first, then bounds; a fault reads 0. -/
def guardedRead (i : Nat) (w : Width) (s : State) : Word × State :=
  if i % w.bytes ≠ 0 then (0, raiseFault .align s)
  else if i + w.bytes > s.params.memSize then (0, raiseFault .bounds s)
  else (BitVec.ofNat 32 (memRead s.mem i w.bytes), s)

/-- `GWrite(i, n, v)` (R55): alignment first, then bounds; a faulting write is dropped. -/
def guardedWrite (i : Nat) (w : Width) (v : Word) (s : State) : State :=
  if i % w.bytes ≠ 0 then raiseFault .align s
  else if i + w.bytes > s.params.memSize then raiseFault .bounds s
  else s.setMem (memWrite s.mem i w.bytes v.toNat)

end Sys2Proof.Machine
end

