-- ==== Sys2Proof/Machine/Mmu.lean ====
section
/-!
DEFINITION. The MMU (20_memory.md R60 to R69): the I/O window's registers (R70 to R77), the window
routing, and the reads of the instruction stream.
-/

namespace Sys2Proof

/-- The low `8n` bits of a value, zero-extended (R77). -/
def Width.low (w : Width) (v : Word) : Word :=
  match w with
  | .narrow => (v.setWidth 16).setWidth 32
  | .wide => v

end Sys2Proof

namespace Sys2Proof.Machine

/-- `CRR`: bit 0 = EQUAL, bit 1 = GREATER, bit 2 = LESS, the rest 0 (R25, R75). -/
def CondReg.toWord (c : CondReg) : Word :=
  (BitVec.ofBool c.lt ++ BitVec.ofBool c.gt ++ BitVec.ofBool c.eq : BitVec 3).setWidth 32

/-- The value a read of an I/O register returns, before the width rule (R70 to R76). -/
def ioValue (s : State) : IoReg → Word
  | .pbase => s.primary.base.setWidth 32
  | .poff => s.primary.off.setWidth 32
  | .rbase => s.ret.base.setWidth 32
  | .roff => s.ret.off.setWidth 32
  | .swireq => 0
  | .out => 0
  | .ipr => s.ip
  | .crr => s.cr.toWord
  | .jv => s.sic.jv
  | .cause => s.sic.cause
  | .ra => s.sic.ra

/-- `IoRead(a, n)` (R77), with the fault of an address that holds no register (R74). -/
def ioRead (a : Nat) (w : Width) (s : State) : Word × State :=
  match IoReg.ofAddr a with
  | some r => (w.low (ioValue s r), s)
  | none => (0, raiseFault .unmappedIo s)

/-- `OutWrite(b)` (R240). -/
def outWrite (b : Byte) (s : State) : State :=
  { s with outq := s.outq ++ [b], outReady := false }

/-- A write of the value `v`, already cut to the access's width, to an I/O register (R70 to R77). -/
def ioRegWrite (r : IoReg) (v : Word) (s : State) : State :=
  match r with
  | .pbase => s.setBase .P (v.setWidth 16)
  | .poff => s.setOff .P (v.setWidth 16)
  | .rbase => s.setBase .R (v.setWidth 16)
  | .roff => s.setOff .R (v.setWidth 16)
  | .swireq => raiseSoftwareInterrupt v s
  | .out => outWrite (v.setWidth 8) s
  | .ipr => raiseFault .unmappedIo s
  | .crr => raiseFault .unmappedIo s
  | .jv => { s with sic := { s.sic with jv := v } }
  | .cause => { s with sic := { s.sic with cause := v } }
  | .ra => { s with sic := { s.sic with ra := v } }

/-- `IoWrite(a, n, v)` (R77), with the fault of an address that holds no register (R74). -/
def ioWrite (a : Nat) (w : Width) (v : Word) (s : State) : State :=
  match IoReg.ofAddr a with
  | some r => ioRegWrite r (w.low v) s
  | none => raiseFault .unmappedIo s

/-- `MmuRead(a, n)` (R62). -/
def mmuRead (a : Word) (w : Width) (s : State) : Word × State :=
  if ioLo ≤ a.toNat ∧ a.toNat ≤ ioHi then
    if a.toNat % w.bytes ≠ 0 then (0, raiseFault .align s) else ioRead a.toNat w s
  else if memLo ≤ a.toNat ∧ a.toNat ≤ s.params.memWinHi then guardedRead a.toNat w s
  else (0, raiseFault .unmappedAddr s)

/-- `MmuWrite(a, n, v)` (R63). -/
def mmuWrite (a : Word) (w : Width) (v : Word) (s : State) : State :=
  if ioLo ≤ a.toNat ∧ a.toNat ≤ ioHi then
    if a.toNat % w.bytes ≠ 0 then raiseFault .align s else ioWrite a.toNat w v s
  else if memLo ≤ a.toNat ∧ a.toNat ≤ s.params.memWinHi then guardedWrite a.toNat w v s
  else raiseFault .unmappedAddr s

/-- `FetchRead16(a)` (R66). -/
def fetchRead16 (a : Word) (s : State) : Half × State :=
  let r := mmuRead a .narrow s
  (r.1.setWidth 16, r.2)

end Sys2Proof.Machine
end

