-- ==== Sys2Proof/Machine/StackEngine.lean ====
section
/-!
DEFINITION. The stack engine (40_stack_engine.md R130 to R138).
-/

namespace Sys2Proof.Machine

/-- `SlotRead(t, o)` (R130): the guarded 16-bit read at `S[t].base + o`, the sum unwrapped. -/
def slotRead (t : StackId) (o : Half) (s : State) : Half × State :=
  let r := guardedRead ((s.stack t).base.toNat + o.toNat) .narrow s
  (r.1.setWidth 16, r.2)

/-- `SlotWrite(t, o, h)` (R130). -/
def slotWrite (t : StackId) (o : Half) (h : Half) (s : State) : State :=
  guardedWrite ((s.stack t).base.toNat + o.toNat) .narrow (h.setWidth 32) s

/-- `push16(t, h)` (R131). During an instruction `IP` is `IP0` (R21). -/
def push16 (t : StackId) (h : Half) (s : State) : Flow Unit :=
  if (s.stack t).off.toNat ≥ stackBytes then .stop (fatalStop (.stackOverflow t s.ip) s)
  else
    let o := (s.stack t).off
    .cont () ((slotWrite t o h s).setOff t (o + 2))

/-- `pop16(t)` (R133). -/
def pop16 (t : StackId) (s : State) : Half × State :=
  if (s.stack t).off.toNat < 2 then (0, s.setOff t 0)
  else
    let o := (s.stack t).off - 2
    let r := slotRead t o (s.setOff t o)
    (r.1, slotWrite t o 0 r.2)

/-- `push(t, w, v)` (R134): the low half, then with width 32 the high half. -/
def push (t : StackId) (w : Width) (v : Word) (s : State) : Flow Unit :=
  match w with
  | .narrow => push16 t (v.extractLsb' 0 16) s
  | .wide => (push16 t (v.extractLsb' 0 16) s).bind fun _ s => push16 t (v.extractLsb' 16 16) s

/-- The two pops of R135 before the push-back: a 16-bit value zero-extended (log 7), or high half then
low half. -/
def popValue (t : StackId) (w : Width) (s : State) : Word × State :=
  match w with
  | .narrow =>
    let r := pop16 t s
    (r.1.setWidth 32, r.2)
  | .wide =>
    let hi := pop16 t s
    let lo := pop16 t hi.2
    (hi.1 ++ lo.1, lo.2)

/-- `pop(t, w, keep)` (R135, R136): with `keep` the value is pushed back with the same flags. -/
def pop (t : StackId) (w : Width) (keep : Bool) (s : State) : Flow Word :=
  let r := popValue t w s
  if keep then (push t w r.1 r.2).bind fun _ s => .cont r.1 s else .cont r.1 r.2

/-! ## Inspection -/

/-- `half(i - 2)` of R137: the slot that ends at offset `i`, 0 below the stack's base or past the
memory, by the raw accessor and without a fault. -/
def copyHalf (s : State) (t : StackId) (i : Nat) : Half :=
  if i < 2 then 0
  else if (s.stack t).base.toNat + (i - 2) + 2 ≤ s.params.memSize then
    BitVec.ofNat 16 (memRead s.mem ((s.stack t).base.toNat + (i - 2)) 2)
  else 0

/-- `copy(t, i, w)` (R137): an inspection port, no state changes. -/
def copy (s : State) (t : StackId) (i : Nat) (w : Width) : Word :=
  match w with
  | .narrow => (copyHalf s t i).setWidth 32
  | .wide => copyHalf s t i ++ copyHalf s t (i - 2)

/-- `top(t)` (R138): the depth in bytes. -/
def top (s : State) (t : StackId) : Nat := (s.stack t).off.toNat

end Sys2Proof.Machine
end

