-- ==== Sys2Proof/Machine/Operands.lean ====
section
/-!
DEFINITION. The operand forms an instruction's flags select (00_scope.md R15; 30_encoding.md R104) and
the immediate of `Lit` (R67, R108).
-/

namespace Sys2Proof

/-- `w`: 32 bits with `SHORT`, else 16 (R15). -/
def Flags.width (f : Flags) : Width := if f.short then .wide else .narrow

namespace Machine

/-- `t`, the flag-selected stack: `R` with `RETURN`, else `P` (R15). -/
def selected (f : Flags) : StackId := if f.ret then .R else .P

/-- The `Lit` immediate at address `a`: one 16-bit read, or with `SHORT` two, low half first
(R67, R108); a read that faults gives 0 for its half (R171). Addresses wrap (R161). -/
def fetchImmediate (a : Word) (w : Width) (s : State) : Word × State :=
  match w with
  | .narrow =>
    let lo := fetchRead16 a s
    (wordOfHalves lo.1 0, lo.2)
  | .wide =>
    let lo := fetchRead16 a s
    let hi := fetchRead16 (a + 2) lo.2
    (wordOfHalves lo.1 hi.1, hi.2)

/-- The instruction at `ip0` with the immediate its encoding carries after the word read in: only a
`Lit` has one (R108, R171). -/
def withImmediate (i : Instr) (ip0 : Word) (s : State) : Instr × State :=
  match i with
  | .lit f _ =>
    let r := fetchImmediate (ip0 + 2) f.width s
    (.lit f r.1, r.2)
  | .nop f => (.nop f, s)
  | .dup f => (.dup f, s)
  | .ovr f => (.ovr f, s)
  | .str f => (.str f, s)
  | .load f => (.load f, s)
  | .push f => (.push f, s)
  | .drop f => (.drop f, s)
  | .jsr f => (.jsr f, s)
  | .cmp f => (.cmp f, s)
  | .halt f => (.halt f, s)

end Machine

end Sys2Proof
end

