-- ==== Sys2Proof/Machine/Flags.lean ====
section
/-!
DEFINITION. The condition register: what `Cmp` writes (44_control_ops.md R205) and the gate that reads
it (41_dispatch.md R155).
-/

namespace Sys2Proof.Machine

/-- The three bits `Cmp` writes, unsigned (R205); `v1` is the value popped first. -/
def conditionOf (v1 v2 : Word) : CondReg :=
  { eq := v1 == v2
    gt := decide (v1.toNat > v2.toNat)
    lt := decide (v1.toNat < v2.toNat) }

/-- `Gate(F)` (R155): unconditional with no gate bit set, else at least one set gate must match. -/
def gate (f : Flags) (c : CondReg) : Bool :=
  if !(f.ifEqual || f.ifGreater || f.ifLess) then true
  else (f.ifEqual && c.eq) || (f.ifGreater && c.gt) || (f.ifLess && c.lt)

end Sys2Proof.Machine
end

