-- ==== Sys2Proof/Machine/ControlOps.lean ====
section
/-!
DEFINITION. The control instructions (44_control_ops.md): Jsr, Cmp, Halt.
-/

namespace Sys2Proof.Machine

/-- `Jsr`, call form (R200): pop a 16-bit target from the return stack, push the 32-bit return address
there, set `IP`. -/
def jsrCall (f : Flags) (s : State) : Flow Unit :=
  (pop .R .narrow f.keep s).bind fun target s =>
  (push .R .wide (s.ip + 2) s).bind fun _ s =>
  .cont () (setIp target s)

/-- `Jsr`, return form (R201): push the 32-bit `IP0 + 2` on the primary stack, pop the target from the
return stack with the instruction's width, set `IP`. -/
def jsrReturn (f : Flags) (s : State) : Flow Unit :=
  (push .P .wide (s.ip + 2) s).bind fun _ s =>
  (pop .R f.width f.keep s).bind fun target s =>
  .cont () (setIp target s)

/-- `Jsr` (R200, R201): `RETURN` selects the form. -/
def execJsr (f : Flags) (s : State) : Host.Outcome State Fault Refusal :=
  (if f.ret then jsrReturn f s else jsrCall f s).outcome

/-- `Cmp` (R205): pop `v1`, pop `v2`, write all three condition bits. -/
def execCmp (f : Flags) (s : State) : Host.Outcome State Fault Refusal :=
  ((pop (selected f) f.width f.keep s).bind fun v1 s =>
    (pop (selected f) f.width f.keep s).bind fun v2 s =>
    .cont () { s with cr := conditionOf v1 v2 }).outcome

/-- `Halt` (R208): `run <- Halted`. -/
def execHalt (_ : Flags) (s : State) : Host.Outcome State Fault Refusal :=
  .next { s with run := .halted }

end Sys2Proof.Machine
end

