-- ==== Sys2Proof/Machine/MemoryOps.lean ====
section
/-!
DEFINITION. The memory instructions (43_memory_ops.md): Str, Load.
-/

namespace Sys2Proof.Machine

/-- `Str` (R190): pop a 32-bit address, pop the data, write through the MMU. -/
def execStr (f : Flags) (s : State) : Host.Outcome State Fault Refusal :=
  ((pop (selected f) .wide f.keep s).bind fun a s =>
    (pop (selected f) f.width f.keep s).bind fun d s =>
    .cont () (mmuWrite a f.width d s)).outcome

/-- `Load` (R192): pop a 32-bit address, read through the MMU, push the value. -/
def execLoad (f : Flags) (s : State) : Host.Outcome State Fault Refusal :=
  ((pop (selected f) .wide f.keep s).bind fun a s =>
    let r := mmuRead a f.width s
    push (selected f) f.width r.1 r.2).outcome

end Sys2Proof.Machine
end

