-- ==== Sys2Proof/Machine/StackOps.lean ====
section
/-!
DEFINITION. The stack instructions (42_stack_ops.md): Nop, Lit, Dup, Over, Push, Drop. Each meaning is
`Execute(op, F)` of R151: the gate and the IP advance are the wrapper's (R155, R157; log 8).
-/

namespace Sys2Proof.Machine

/-- `Nop` (R170). -/
def execNop (_ : Flags) (s : State) : Host.Outcome State Fault Refusal := .next s

/-- `Lit` (R171): push the immediate; `KEEP` is ignored. -/
def execLit (f : Flags) (imm : Word) (s : State) : Host.Outcome State Fault Refusal :=
  (push (selected f) f.width imm s).outcome

/-- `Dup` (R173): peek stack `t` (`KEEP` forced on), push on the other stack. -/
def execDup (f : Flags) (s : State) : Host.Outcome State Fault Refusal :=
  ((pop (selected f) f.width true s).bind fun v s =>
    push (selected f).other f.width v s).outcome

/-- `Over` (R175): pop `v0`, `v1`, `v2` (`KEEP` forced off), push `v2`, `v0`, `v1`. -/
def execOver (f : Flags) (s : State) : Host.Outcome State Fault Refusal :=
  ((pop (selected f) f.width false s).bind fun v0 s =>
    (pop (selected f) f.width false s).bind fun v1 s =>
    (pop (selected f) f.width false s).bind fun v2 s =>
    (push (selected f) f.width v2 s).bind fun _ s =>
    (push (selected f) f.width v0 s).bind fun _ s =>
    push (selected f) f.width v1 s).outcome

/-- `Push` (R177): pop with the instruction's own `KEEP`, push back on the same stack. -/
def execPush (f : Flags) (s : State) : Host.Outcome State Fault Refusal :=
  ((pop (selected f) f.width f.keep s).bind fun v s => push (selected f) f.width v s).outcome

/-- `Drop` (R179): pop (`KEEP` forced off) and discard. -/
def execDrop (f : Flags) (s : State) : Host.Outcome State Fault Refusal :=
  (pop (selected f) f.width false s).outcome

end Sys2Proof.Machine
end

