-- ==== Sys2Proof/Machine/Dispatch.lean ====
section
/-!
DEFINITION. `Execute(op, F)` of the cycle (41_dispatch.md R151 step 5): one arm per instruction.
-/

namespace Sys2Proof.Machine

def exec (i : Instr) (s : State) : Host.Outcome State Fault Refusal :=
  match i with
  | .nop f => Sys2Proof.Machine.execNop f s
  | .lit f imm => Sys2Proof.Machine.execLit f imm s
  | .dup f => Sys2Proof.Machine.execDup f s
  | .ovr f => Sys2Proof.Machine.execOver f s
  | .str f => Sys2Proof.Machine.execStr f s
  | .load f => Sys2Proof.Machine.execLoad f s
  | .push f => Sys2Proof.Machine.execPush f s
  | .drop f => Sys2Proof.Machine.execDrop f s
  | .jsr f => Sys2Proof.Machine.execJsr f s
  | .cmp f => Sys2Proof.Machine.execCmp f s
  | .halt f => Sys2Proof.Machine.execHalt f s

end Sys2Proof.Machine
end

