-- ==== Sys2Proof/Machine/Cycle.lean ====
section
/-!
DEFINITION. The execution cycle (41_dispatch.md R151 to R165), the output device's step
(60_exceptions.md R243) and which agent moves (R163, R164; log 3).
-/

namespace Sys2Proof.Machine

/-- Whether an instruction sets `IP` itself (R157): only `Jsr`. -/
def setsIp : Instr → Bool
  | .jsr _ => true
  | .nop _ => false
  | .lit _ _ => false
  | .dup _ => false
  | .ovr _ => false
  | .str _ => false
  | .load _ => false
  | .push _ => false
  | .drop _ => false
  | .cmp _ => false
  | .halt _ => false

/-- The IP advance (R157, R161): `IP <- (IP0 + Len(op, F)) mod 2^32`. -/
def advance (i : Instr) (ip0 : Word) (s : State) : State :=
  { s with ip := ip0 + BitVec.ofNat 32 i.length }

/-- Steps 5 and 6 of the cycle after an executed instruction (R151): no advance when the machine has
stopped (R159) or for a `Jsr` (R157). -/
def afterExec (i : Instr) (ip0 : Word) (o : Host.Outcome State Fault Refusal) :
    Host.Outcome State Fault Refusal :=
  match o with
  | .next s => if s.run = .running && !setsIp i then .next (advance i ip0 s) else .next s
  | .fault r => .fault r
  | .refused r => .refused r

/-- Steps 4 to 6 of the cycle for a decoded instruction at `ip0` (R151): the gate, `Execute` (a `Lit`
reads its immediate first, R171), the advance. A skipped instruction only advances (R156). -/
def dispatch (i : Instr) (ip0 : Word) (s : State) : Host.Outcome State Fault Refusal :=
  if gate i.flags s.cr then
    let r := withImmediate i ip0 s
    afterExec i ip0 (exec r.1 r.2)
  else .next (advance i ip0 s)

/-- Steps 2 to 6 of the cycle (R151): fetch at `IP` (a faulting fetch reads the word 0x0000, R153),
decode (an illegal opcode byte is fatal before the gate, R154), dispatch. -/
def fetchAndRun (s : State) : Host.Outcome State Fault Refusal :=
  let w := fetchRead16 s.ip s
  let op : Byte := w.1.extractLsb' 0 8
  match Instr.ofOpcode op (Flags.ofByte (w.1.extractLsb' 8 8)) 0 with
  | none => .next (fatalStop (.invalidOpcode s.ip op) w.2)
  | some i => dispatch i s.ip w.2

/-- One cycle of the CORE from step 1 on (R151): the interrupt check, then fetch to advance. -/
def cycle (s : State) : Host.Outcome State Fault Refusal := fetchAndRun (interruptEntry s)

/-- `DeviceStep()` of the output device (R243); `none` when it is not enabled. -/
def deviceStep (s : State) : Option State :=
  match s.outq with
  | [] => none
  | b :: q => some { s with outq := q, outputTrace := s.outputTrace ++ [b], outReady := true }

/-- The device's step where the CORE takes none; `r` where the device takes none either. -/
def deviceOr (r : Fault) (s : State) : Host.Outcome State Fault Refusal :=
  match deviceStep s with
  | some t => .next t
  | none => .fault r

/-- One step of one agent. The CORE runs a cycle when it is running, not stopped by the host (R282; log 5)
and not held (R151, R163); else the device steps if it can (R164, R243); else no step is left. -/
def agentStep (s : State) : Host.Outcome State Fault Refusal :=
  match s.run with
  | .running =>
    if s.stopped then deviceOr .stopped s
    else if s.outReady then cycle s else deviceOr .held s
  | .halted => deviceOr .halted s
  | .fatal info => deviceOr (.fatal info) s

/-- Where the next cycle fetches: the vector when an interrupt is pending, else `IP` (R151). -/
def fetchAddress (s : State) : Word := (interruptEntry s).ip

/-- The bytes of an instruction stored where the next cycle fetches, as a program load would store
them (R271), those inside the memory only. -/
def placeInstr (bs : List Byte) (s : State) : State :=
  let a := (fetchAddress s).toNat
  s.setMem (s.mem.load a (bs.take (s.params.memSize - a)))

end Sys2Proof.Machine
end

