-- ==== Sys2Proof/Machine/Step.lean ====
section
/-!
DEFINITION. The step function, and the placing of one instruction where it fetches next.
-/

namespace Sys2Proof.Machine

/-- One step of the machine: one CORE cycle or one device step (00_scope.md R19; 41_dispatch.md R151). -/
def step (s : State) : Host.Outcome State Fault Refusal := agentStep s

/-- `s` with the instruction of a table word stored where `step` fetches its next instruction; it
stands for the program load of R271 (log 2, log 12). -/
def State.withFetchWord (s : State) (nbits w : Nat) : State := placeInstr (tableBytes nbits w) s

end Sys2Proof.Machine
end

