-- ==== Sys2Proof/Machine/Boot.lean ====
section
/-!
DEFINITION. Reset and program load (70_reset_and_hazards.md R270 to R276).
-/

namespace Sys2Proof.Machine

/-- Why a start is refused (R270): no machine exists then. -/
inductive BootRefusal where
  /-- `MEM_SIZE` below `MIN_MEM` or above 2^32 (R276). -/
  | badMemorySize
  /-- The image has an odd number of bytes (R271). -/
  | oddImage
  /-- The image does not fit in the memory (R271). -/
  | imageTooLarge
deriving DecidableEq, Repr

/-- `Reset(MEM_SIZE, image)` (R270), the three refusals in the order of the rule; `MEM_WIN_HI` is the
machine's other parameter (R9). DESIGN CHOICE: its bounds are not checked here, because R270 names no
refusal for it (log 14). -/
def boot (p : Params) (image : List Byte) : Except BootRefusal State :=
  if p.memSize < minMem ∨ p.memSize > maxMem then .error .badMemorySize
  else if image.length % 2 ≠ 0 then .error .oddImage
  else if loadBase.toNat + image.length > p.memSize then .error .imageTooLarge
  else .ok { State.initial p with mem := Memory.load [] loadBase.toNat image }

end Sys2Proof.Machine
end

