-- ==== Sys2Proof/Machine/Signals.lean ====
section
/-!
DEFINITION. The hardware boundary of the output port and of the run state (60_exceptions.md R244): the
outputs as functions of the state, the inputs `out_taken` and `stop` as what they do to it.
`boot_mem_size` and `boot_image` are the arguments of `boot` (Machine/Boot.lean).
-/

namespace Sys2Proof.Machine

/-- `out_valid`: `outq` is not empty. -/
def outValid (s : State) : Bool := !s.outq.isEmpty

/-- `out_data`: the byte at the head of `outq`; none when `out_valid` is 0. -/
def outData (s : State) : Option Byte := s.outq.head?

/-- `out_taken`: the device has taken the byte, which is its step (R243); no effect when `out_valid`
is 0. -/
def outTaken (s : State) : State := (deviceStep s).getD s

/-- The three values of `run_state`. -/
inductive RunSignal where
  /-- `Running`. -/
  | running
  /-- `Halted`. -/
  | halted
  /-- `Fatal`. -/
  | fatal
deriving DecidableEq, Repr

/-- `run_state`. -/
def runSignal (s : State) : RunSignal :=
  match s.run with
  | .running => .running
  | .halted => .halted
  | .fatal _ => .fatal

/-- `fatal_info`: the address and opcode, or the address and stack; none when `run` is not `Fatal`. -/
def fatalInfo (s : State) : Option FatalInfo :=
  match s.run with
  | .fatal info => some info
  | .running => none
  | .halted => none

/-- `stop`, the host's 1-bit input at a cycle boundary (R282): 1 stops the CORE for good, 0 does nothing.
It raises no interrupt and writes no register; what the machine does after it is `agentStep` (log 5). -/
def stopInput (level : Bool) (s : State) : State := { s with stopped := s.stopped || level }

/-- The run is complete (R164): halted, and every byte written to `OUT` emitted. -/
def runComplete (s : State) : Bool := decide (s.run = .halted) && s.outq.isEmpty

end Sys2Proof.Machine
end

