-- ==== Sys2Proof/Safety.lean ====
section
/-!
DEFINITION. The terms the claims are stated in: the invariant of every run, where a stack may lie for
its slots to be readable, and what an observer of all but the output sees.
-/

namespace Sys2Proof.Machine

/-- The state of the machine that every step keeps and boot establishes. -/
structure Invariant (s : State) : Prop where
  /-- The memory is in its canonical form. -/
  memWf : s.mem.wf
  /-- Nothing is stored outside the memory (R32, R55). -/
  memWithin : s.mem.within s.params.memSize
  /-- The open parameters meet the constraints of R9. -/
  params : s.params.valid
  /-- "IP is always even" (R21, R22). -/
  ipEven : s.ip.toNat % 2 = 0
  /-- The output handshake: ready exactly when no byte waits (R240, R243). -/
  handshake : s.outReady = true ↔ s.outq = []
  /-- The queue holds at most one byte (R241). -/
  queue : s.outq.length ≤ 1
  /-- At most one condition bit is 1 (R24). -/
  condition : s.cr = ⟨false, false, false⟩ ∨ s.cr = ⟨true, false, false⟩ ∨
    s.cr = ⟨false, true, false⟩ ∨ s.cr = ⟨false, false, true⟩
  /-- A halted machine has no interrupt pending (R235). -/
  haltedQuiet : s.run = .halted → s.pending = false

/-- The memory index of slot 0 of a stack. -/
def baseOf (s : State) (t : StackId) : Nat := (s.stack t).base.toNat

/-- A stack whose slots are all readable: base and offset even, at most 256 bytes deep, and its whole
256-byte area inside the memory (R28, R130). The reset bases and any other placement meet it. -/
abbrev StackSound (t : StackId) (s : State) : Prop :=
  baseOf s t % 2 = 0 ∧ top s t % 2 = 0 ∧ top s t ≤ stackBytes ∧
    baseOf s t + stackBytes ≤ s.params.memSize

/-- The areas of the two stacks share no byte. -/
abbrev StacksApart (s : State) : Prop :=
  baseOf s .P + stackBytes ≤ baseOf s .R ∨ baseOf s .R + stackBytes ≤ baseOf s .P

/-- Index `a` lies in the bytes of stack `t` from offset `lo` up to offset `hi`. -/
abbrev InSlots (s : State) (t : StackId) (lo hi a : Nat) : Prop :=
  baseOf s t + lo ≤ a ∧ a < baseOf s t + hi

/-- Byte `k` of a little-endian value (R50). -/
def byteOf (v : Word) (k : Nat) : Byte := BitVec.ofNat 8 (v.toNat / 2 ^ (8 * k))

/-- An aligned access of `n` bytes at `a` that the memory window serves without a fault: in the window
(R61), a multiple of its width and inside the capacity (R54). -/
abbrev InMemory (s : State) (a : Word) (w : Width) : Prop :=
  memLo ≤ a.toNat ∧ a.toNat ≤ s.params.memWinHi ∧ a.toNat % w.bytes = 0 ∧
    a.toNat + w.bytes ≤ s.params.memSize

/-- The state after `raise Fault(kind)` of cause word `c`, spelled out: `SIC.CAUSE` and `pending` only
(R221, R222). -/
def raised (c : Word) (s : State) : State :=
  { s with sic := { s.sic with cause := c }, pending := true }

/-- The CORE starts a cycle now: running, not stopped by the host and not held (R151, R163, R282). -/
abbrev Ready (s : State) : Prop := s.run = .running ∧ s.stopped = false ∧ s.outReady = true

/-- The state with the output queue and the output trace forgotten. -/
def forgetOutput (s : State) : State := { s with outq := [], outputTrace := [] }

end Sys2Proof.Machine
end

