-- ==== Sys2Proof/Certificates/Slice0/Obligations.lean ====
section
/-!
DEFINITION. The statements for the provers. `copy s t i w` is the inspection port of R137: the value of
width `w` that ends at offset `i` of stack `t`, with 0 for a half below the stack's base; `top s t` is
the depth in bytes (R138). Offsets are natural numbers, so `top s t - w.bytes` is 0 where a pop
underflows (R133). A docstring's "Spec decisions" names the entries of 92_eei_decisions.md, choices of the
spec's own that the source leaves open, which the statement rests on.
-/

open Sys2Proof Sys2Proof.Machine

/-! ## Encoding -/

/-- Decoding the encoding of a well-formed instruction gives it back, whatever follows (R100 to R109).
Spec decisions: D1, D2. -/
def Obligations.DecodeInvertsEncode : Prop :=
  ∀ (i : Instr) (rest : List Byte), i.wf = true → decode (encode i ++ rest) = .ok (i, rest)

/-- Whatever decodes is well-formed and is the encoding of what it decodes to: no bit is dropped and each
byte sequence has one meaning (R100 to R109). Spec decisions: D1, D2. -/
def Obligations.EncodeInvertsDecode : Prop :=
  ∀ (bs : List Byte) (i : Instr) (rest : List Byte), decode bs = .ok (i, rest) →
    i.wf = true ∧ encode i ++ rest = bs

/-- R101: the length is told from the first word alone: 2, but for `Lit` 4, or 6 with `SHORT`.
Spec decisions: D1, D2. -/
def Obligations.LengthFromFirstWord : Prop :=
  ∀ (op fb : Byte) (rest : List Byte) (i : Instr) (rest' : List Byte),
    decode (op :: fb :: rest) = .ok (i, rest') →
      i.length = (if op = 0x01 then (if fb.getLsbD 2 then 6 else 4) else 2) ∧
        rest.length + 2 = rest'.length + i.length

/-- R106: every opcode byte above 0x0A is refused by name. Spec decisions: D1, D4. -/
def Obligations.IllegalOpcodeBytesRefused : Prop :=
  ∀ (op fb : Byte) (rest : List Byte), 0x0A < op.toNat →
    decode (op :: fb :: rest) = .error (.illegalOpcode op)

/-- Words of 95_test_vectors.md section 2.1, one for each opcode, decode as the spec says.
Spec decisions: D1, D2, D3. -/
def Obligations.SpecWordsDecode : Prop :=
  decodeTableWord 16 0xC000 = some (.nop { reserved := 3 }) ∧
    decodeTableWord 32 0x12340001 = some (.lit {} 0x1234) ∧
    decodeTableWord 48 0x123456780401 = some (.lit { short := true } 0x12345678) ∧
    decodeTableWord 16 0x0202 = some (.dup { ret := true }) ∧
    decodeTableWord 16 0x0403 = some (.ovr { short := true }) ∧
    decodeTableWord 16 0x0404 = some (.str { short := true }) ∧
    decodeTableWord 16 0x0605 = some (.load { ret := true, short := true }) ∧
    decodeTableWord 16 0x0306 = some (.push { keep := true, ret := true }) ∧
    decodeTableWord 16 0x0607 = some (.drop { ret := true, short := true }) ∧
    decodeTableWord 16 0x3808 =
      some (.jsr { ifEqual := true, ifGreater := true, ifLess := true }) ∧
    decodeTableWord 16 0x0109 = some (.cmp { keep := true }) ∧
    decodeTableWord 16 0x000A = some (.halt {}) ∧
    decodeTableWord 16 0x000B = none

/-! ## Memory, MMU, I/O registers -/

/-- R54, clause by clause: a misaligned read gives 0 and AlignmentFault, one that is aligned and out of
bounds 0 and BoundsFault, any other the bytes, and then no state changes. Spec decisions: D13, D14. -/
def Obligations.GuardedReadOutcome : Prop :=
  ∀ (i : Nat) (w : Width) (s : State),
    (i % w.bytes ≠ 0 → guardedRead i w s = (0, raised 0x80000001 s)) ∧
    (i % w.bytes = 0 → s.params.memSize < i + w.bytes →
      guardedRead i w s = (0, raised 0x80000002 s)) ∧
    (i % w.bytes = 0 → i + w.bytes ≤ s.params.memSize →
      ∃ v, guardedRead i w s = (v, s) ∧ v.toNat < 2 ^ (8 * w.bytes) ∧
        ∀ j, j < w.bytes → byteOf v j = s.mem.read (i + j))

/-- R55, clause by clause: a faulting write changes no byte; any other stores its bytes, little-endian,
and changes no other byte and nothing but the memory. Spec decisions: D13, D14. -/
def Obligations.GuardedWriteOutcome : Prop :=
  ∀ (i : Nat) (w : Width) (v : Word) (s : State), s.mem.wf →
    (i % w.bytes ≠ 0 → guardedWrite i w v s = raised 0x80000001 s) ∧
    (i % w.bytes = 0 → s.params.memSize < i + w.bytes →
      guardedWrite i w v s = raised 0x80000002 s) ∧
    (i % w.bytes = 0 → i + w.bytes ≤ s.params.memSize →
      ∃ m, guardedWrite i w v s = s.setMem m ∧
        ∀ a, m.read a = if i ≤ a ∧ a < i + w.bytes then byteOf v (a - i) else s.mem.read a)

/-- R62, R63, R74: which window serves an address, and the fault of one that none serves.
Spec decisions: D5, D6, D13, D14. -/
def Obligations.MmuRoutesAddresses : Prop :=
  ∀ (a : Word) (w : Width) (v : Word) (s : State),
    (a.toNat ≤ 0x3FF → a.toNat % w.bytes ≠ 0 →
      mmuRead a w s = (0, raised 0x80000001 s) ∧ mmuWrite a w v s = raised 0x80000001 s) ∧
    (a.toNat ≤ 0x3FF → a.toNat % w.bytes = 0 →
      a.toNat ∉ [0x000, 0x002, 0x004, 0x006, 0x00C, 0x100, 0x200, 0x204, 0x300, 0x304, 0x308] →
      mmuRead a w s = (0, raised 0x80000003 s) ∧ mmuWrite a w v s = raised 0x80000003 s) ∧
    (0x400 ≤ a.toNat → a.toNat ≤ s.params.memWinHi →
      mmuRead a w s = guardedRead a.toNat w s ∧ mmuWrite a w v s = guardedWrite a.toNat w v s) ∧
    (0x400 ≤ a.toNat → s.params.memWinHi < a.toNat →
      mmuRead a w s = (0, raised 0x80000004 s) ∧ mmuWrite a w v s = raised 0x80000004 s)

/-- R70, R75, R77: what a read of each I/O register returns at each width, with no change of state.
Spec decisions: D7 to D12. -/
def Obligations.IoRegistersRead : Prop :=
  ∀ (w : Width) (s : State),
    mmuRead 0x000 w s = (s.primary.base.setWidth 32, s) ∧
    mmuRead 0x002 .narrow s = (s.primary.off.setWidth 32, s) ∧
    mmuRead 0x004 w s = (s.ret.base.setWidth 32, s) ∧
    mmuRead 0x006 .narrow s = (s.ret.off.setWidth 32, s) ∧
    mmuRead 0x00C w s = (0, s) ∧
    mmuRead 0x100 w s = (0, s) ∧
    mmuRead 0x200 w s = (w.low s.ip, s) ∧
    mmuRead 0x204 w s =
      ((if s.cr.eq then 1 else 0) + (if s.cr.gt then 2 else 0) + (if s.cr.lt then 4 else 0), s) ∧
    mmuRead 0x300 w s = (w.low s.sic.jv, s) ∧
    mmuRead 0x304 w s = (w.low s.sic.cause, s) ∧
    mmuRead 0x308 w s = (w.low s.sic.ra, s)

/-- R71 to R77: what a write of each I/O register does at each width, and that it does nothing else.
Spec decisions: D7 to D13. -/
def Obligations.IoRegistersWrite : Prop :=
  ∀ (w : Width) (v : Word) (s : State),
    mmuWrite 0x000 w v s = { s with primary := { s.primary with base := v.setWidth 16 } } ∧
    mmuWrite 0x002 .narrow v s = { s with primary := { s.primary with off := v.setWidth 16 } } ∧
    mmuWrite 0x004 w v s = { s with ret := { s.ret with base := v.setWidth 16 } } ∧
    mmuWrite 0x006 .narrow v s = { s with ret := { s.ret with off := v.setWidth 16 } } ∧
    mmuWrite 0x00C w v s = raised (w.low v &&& 0x7FFFFFFF) s ∧
    mmuWrite 0x100 w v s = { s with outq := s.outq ++ [v.setWidth 8], outReady := false } ∧
    mmuWrite 0x200 w v s = raised 0x80000003 s ∧
    mmuWrite 0x204 w v s = raised 0x80000003 s ∧
    mmuWrite 0x300 w v s = { s with sic := { s.sic with jv := w.low v } } ∧
    mmuWrite 0x304 w v s = { s with sic := { s.sic with cause := w.low v } } ∧
    mmuWrite 0x308 w v s = { s with sic := { s.sic with ra := w.low v } }

/-- R193 at the MMU: a read at the address and width of the write before it returns the value stored, in
the memory and in the read/write registers. Spec decisions: D6, D8. -/
def Obligations.StoreThenLoadReturnsValue : Prop :=
  ∀ (a : Word) (w : Width) (v : Word) (s : State), s.mem.wf →
    (InMemory s a w → mmuRead a w (mmuWrite a w v s) = (w.low v, mmuWrite a w v s)) ∧
    (a = 0x300 ∨ a = 0x304 ∨ a = 0x308 →
      mmuRead a .wide (mmuWrite a .wide v s) = (v, mmuWrite a .wide v s)) ∧
    (v.toNat < 0x10000 → (a = 0x000 ∨ a = 0x004 ∨ (a = 0x002 ∨ a = 0x006) ∧ w = .narrow) →
      mmuRead a w (mmuWrite a w v s) = (v, mmuWrite a w v s))

/-! ## Stack engine -/

/-- R131, in every state: full, misaligned slot, slot outside the memory, slot written.
Spec decisions: D13, D14, D16, D18, D25. -/
def Obligations.PushSlotOutcome : Prop :=
  ∀ (t : StackId) (h : Half) (s : State), s.mem.wf →
    (256 ≤ top s t → push16 t h s = .stop { s with run := .fatal (.stackOverflow t s.ip) }) ∧
    (top s t < 256 → (baseOf s t + top s t) % 2 ≠ 0 →
      push16 t h s = .cont () ((raised 0x80000001 s).setOff t (BitVec.ofNat 16 (top s t + 2)))) ∧
    (top s t < 256 → (baseOf s t + top s t) % 2 = 0 → s.params.memSize < baseOf s t + top s t + 2 →
      push16 t h s = .cont () ((raised 0x80000002 s).setOff t (BitVec.ofNat 16 (top s t + 2)))) ∧
    (top s t < 256 → (baseOf s t + top s t) % 2 = 0 → baseOf s t + top s t + 2 ≤ s.params.memSize →
      ∃ m, push16 t h s = .cont () ((s.setOff t (BitVec.ofNat 16 (top s t + 2))).setMem m) ∧
        ∀ a, m.read a =
          if InSlots s t (top s t) (top s t + 2) a then byteOf (h.setWidth 32) (a - (baseOf s t + top s t))
          else s.mem.read a)

/-- R133, in every state: empty, misaligned slot, slot outside the memory, slot read and zeroed.
Spec decisions: D13, D14, D16, D17. -/
def Obligations.PopSlotOutcome : Prop :=
  ∀ (t : StackId) (s : State), s.mem.wf →
    (top s t < 2 → pop16 t s = (0, s.setOff t 0)) ∧
    (2 ≤ top s t → (baseOf s t + (top s t - 2)) % 2 ≠ 0 →
      pop16 t s = (0, (raised 0x80000001 s).setOff t (BitVec.ofNat 16 (top s t - 2)))) ∧
    (2 ≤ top s t → (baseOf s t + (top s t - 2)) % 2 = 0 →
      s.params.memSize < baseOf s t + (top s t - 2) + 2 →
      pop16 t s = (0, (raised 0x80000002 s).setOff t (BitVec.ofNat 16 (top s t - 2)))) ∧
    (2 ≤ top s t → (baseOf s t + (top s t - 2)) % 2 = 0 →
      baseOf s t + (top s t - 2) + 2 ≤ s.params.memSize →
      ∃ h m, pop16 t s = (h, (s.setOff t (BitVec.ofNat 16 (top s t - 2))).setMem m) ∧
        (∀ j, j < 2 → byteOf (h.setWidth 32) j = s.mem.read (baseOf s t + (top s t - 2) + j)) ∧
        ∀ a, m.read a = if InSlots s t (top s t - 2) (top s t) a then 0 else s.mem.read a)

/-- R139: a push, then a pop of the same width without `KEEP` returns the value, restores the offset, leaves
the bytes zero and changes nothing else, where the push fits and its slots are even and in bounds (the
conditions 90_conflicts.md C10 settles on). Spec decisions: D16. -/
def Obligations.PushThenPopReturnsValue : Prop :=
  ∀ (t : StackId) (w : Width) (v : Word) (s : State), s.mem.wf →
    top s t % 2 = 0 → top s t + w.bytes ≤ 256 → (baseOf s t + top s t) % 2 = 0 →
    baseOf s t + top s t + w.bytes ≤ s.params.memSize →
    ∃ u m, push t w v s = .cont () u ∧ pop t w false u = .cont (w.low v) (s.setMem m) ∧
      ∀ a, m.read a = if InSlots s t (top s t) (top s t + w.bytes) a then 0 else s.mem.read a

/-- R136 on a readable stack: a keep pop returns the top value and leaves it on top, grows a stack that
held too few bytes, and changes nothing at all where the stack held the value. Spec decisions: D17. -/
def Obligations.KeepPopPeeks : Prop :=
  ∀ (t : StackId) (w : Width) (s : State), s.mem.wf → StackSound t s →
    ∃ m, let u := (s.setOff t (BitVec.ofNat 16 (top s t - w.bytes + w.bytes))).setMem m
      pop t w true s = .cont (copy s t (top s t) w) u ∧
      copy u t (top u t) w = copy s t (top s t) w ∧
      (∀ a, ¬ InSlots s t (top s t - w.bytes) (top s t - w.bytes + w.bytes) a →
        m.read a = s.mem.read a) ∧
      (w.bytes ≤ top s t → u = s)

/-- R132: a 32-bit push at offset 254 writes its low half into the last slot and then stops the machine;
the high half is not written. Spec decisions: D18, D25. -/
def Obligations.WidePushAtLastSlotOverflows : Prop :=
  ∀ (t : StackId) (v : Word) (s : State), s.mem.wf → baseOf s t % 2 = 0 →
    baseOf s t + 256 ≤ s.params.memSize → top s t = 254 →
    ∃ m, push t .wide v s =
        .stop { (s.setOff t 256).setMem m with run := .fatal (.stackOverflow t s.ip) } ∧
      ∀ a, m.read a = if InSlots s t 254 256 a then byteOf v (a - (baseOf s t + 254)) else s.mem.read a

/-- R137: `copy` returns the value a pop would return if the offset were `i`. Spec decisions: D32. -/
def Obligations.CopyIsWhatPopReturns : Prop :=
  ∀ (t : StackId) (i : Nat) (w : Width) (s : State), s.mem.wf →
    StackSound t (s.setOff t (BitVec.ofNat 16 i)) → i ≤ 256 →
    ∃ u, pop t w false (s.setOff t (BitVec.ofNat 16 i)) = .cont (copy s t i w) u

/-! ## Stack instructions -/

/-- `Nop` (R170): the instruction itself changes nothing. -/
def Obligations.NopChangesNothing : Prop := ∀ (f : Flags) (s : State), exec (.nop f) s = .next s

/-- `Lit` (R171) with room: the immediate is on top of the flag-selected stack; no other byte and nothing
else changes. `KEEP` is ignored. -/
def Obligations.LitPushesImmediate : Prop :=
  ∀ (f : Flags) (imm : Word) (s : State), (Instr.lit f imm).wf = true → s.mem.wf →
    StackSound (selected f) s → top s (selected f) + f.width.bytes ≤ 256 →
    ∃ m, let t := selected f
      let u := (s.setOff t (BitVec.ofNat 16 (top s t + f.width.bytes))).setMem m
      exec (.lit f imm) s = .next u ∧ copy u t (top u t) f.width = imm ∧
      ∀ a, ¬ InSlots s t (top s t) (top s t + f.width.bytes) a → m.read a = s.mem.read a

/-- R131, R171: a `Lit` on a stack at its bound stops the machine, and nothing but `run` changes.
Spec decisions: D18, D25. -/
def Obligations.LitOnFullStackOverflows : Prop :=
  ∀ (f : Flags) (imm : Word) (s : State), 256 ≤ top s (selected f) →
    exec (.lit f imm) s = .next { s with run := .fatal (.stackOverflow (selected f) s.ip) }

/-- `Dup` (R173): the top value of the source stack is pushed on the other stack and stays on its own;
a source that held fewer bytes grows to the width. `KEEP` is irrelevant. Spec decisions: D17. -/
def Obligations.DupCopiesAcrossStacks : Prop :=
  ∀ (f : Flags) (s : State), s.mem.wf → StackSound (selected f) s → StackSound (selected f).other s →
    StacksApart s → top s (selected f).other + f.width.bytes ≤ 256 →
    ∃ m, let t := selected f
      let n := f.width.bytes
      let v := copy s t (top s t) f.width
      let u := ((s.setOff t (BitVec.ofNat 16 (top s t - n + n))).setOff t.other
        (BitVec.ofNat 16 (top s t.other + n))).setMem m
      exec (.dup f) s = .next u ∧
      copy u t.other (top u t.other) f.width = v ∧ copy u t (top u t) f.width = v ∧
      (n ≤ top s t → top u t = top s t) ∧
      ∀ a, ¬ InSlots s t (top s t - n) (top s t - n + n) a →
        ¬ InSlots s t.other (top s t.other) (top s t.other + n) a → m.read a = s.mem.read a

/-- R173: a `Dup` whose other stack is at its bound stops the machine after the peek, which changes
nothing where the source held the value. Spec decisions: D18, D25. -/
def Obligations.DupOntoFullStackOverflows : Prop :=
  ∀ (f : Flags) (s : State), s.mem.wf → StackSound (selected f) s →
    f.width.bytes ≤ top s (selected f) → 256 ≤ top s (selected f).other →
    exec (.dup f) s = .next { s with run := .fatal (.stackOverflow (selected f).other s.ip) }

/-- `Over` (R175): the top two values change places and the third stays; values that are missing are 0
and the stack grows to three. `KEEP` is ignored. Spec decisions: D17. -/
def Obligations.OverExchangesTopTwo : Prop :=
  ∀ (f : Flags) (s : State), s.mem.wf → StackSound (selected f) s →
    ∃ m, let t := selected f
      let n := f.width.bytes
      let b := top s t - n - n - n
      let u := (s.setOff t (BitVec.ofNat 16 (b + n + n + n))).setMem m
      exec (.ovr f) s = .next u ∧
      copy u t (b + n + n + n) f.width = copy s t (top s t - n) f.width ∧
      copy u t (b + n + n) f.width = copy s t (top s t) f.width ∧
      copy u t (b + n) f.width = copy s t (top s t - n - n) f.width ∧
      ∀ a, ¬ InSlots s t b (b + n + n + n) a → m.read a = s.mem.read a

/-- R176: on a stack that holds three values, two `Over`s are the identity. -/
def Obligations.OverTwiceIsIdentity : Prop :=
  ∀ (f : Flags) (s : State), s.mem.wf → StackSound (selected f) s →
    3 * f.width.bytes ≤ top s (selected f) →
    ∃ u, exec (.ovr f) s = .next u ∧ exec (.ovr f) u = .next s

/-- `Push` (R177): the top value is popped and pushed back, and with `KEEP` pushed once more.
Spec decisions: D17, D19. -/
def Obligations.PushRepeatsTopWithKeep : Prop :=
  ∀ (f : Flags) (s : State), s.mem.wf → StackSound (selected f) s →
    (f.keep = true → top s (selected f) - f.width.bytes + f.width.bytes + f.width.bytes ≤ 256) →
    ∃ m, let t := selected f
      let n := f.width.bytes
      let d := top s t - n + n
      let e := if f.keep then d + n else d
      let v := copy s t (top s t) f.width
      let u := (s.setOff t (BitVec.ofNat 16 e)).setMem m
      exec (.push f) s = .next u ∧ copy u t e f.width = v ∧ copy u t d f.width = v ∧
      ∀ a, ¬ InSlots s t (top s t - n) e a → m.read a = s.mem.read a

/-- `Drop` (R179): the top value's bytes are zeroed and the offset goes down, to 0 where it underflows;
nothing else changes. `KEEP` is ignored. Spec decisions: D17. -/
def Obligations.DropDiscardsTop : Prop :=
  ∀ (f : Flags) (s : State), s.mem.wf → StackSound (selected f) s →
    ∃ m, let t := selected f
      exec (.drop f) s = .next ((s.setOff t (BitVec.ofNat 16 (top s t - f.width.bytes))).setMem m) ∧
      ∀ a, m.read a =
        if InSlots s t (top s t - f.width.bytes) (top s t) a then 0 else s.mem.read a

/-! ## Memory instructions -/

/-- `Str` (R190, R191), whatever the address: the address is the top 32 bits, the data the next value (with
`KEEP` the same top value), and the MMU writes the data at the address in the state the two pops leave.
Spec decisions: D17, D19. -/
def Obligations.StrWritesPoppedData : Prop :=
  ∀ (f : Flags) (s : State), s.mem.wf → StackSound (selected f) s →
    ∃ m, let t := selected f
      let a := copy s t (top s t) .wide
      let d := if f.keep then copy s t (top s t) f.width else copy s t (top s t - 4) f.width
      let e := if f.keep then top s t - 4 + 4 else top s t - 4 - f.width.bytes
      let s1 := (s.setOff t (BitVec.ofNat 16 e)).setMem m
      exec (.str f) s = .next (mmuWrite a f.width d s1) ∧
      (f.keep = false → ∀ x, m.read x = if InSlots s t e (top s t) x then 0 else s.mem.read x) ∧
      (f.keep = true → copy s1 t e .wide = a ∧
        ∀ x, ¬ InSlots s t (top s t - 4) e x → m.read x = s.mem.read x)

/-- `Str` without `KEEP` to the memory (R190): the data's bytes at the address, the popped slots zeroed
where the store does not cover them, every other byte and all other state unchanged.
Spec decisions: D6. -/
def Obligations.StrStoresToMemory : Prop :=
  ∀ (f : Flags) (s : State), s.mem.wf → StackSound (selected f) s → f.keep = false →
    InMemory s (copy s (selected f) (top s (selected f)) .wide) f.width →
    ∃ m, let t := selected f
      let a := copy s t (top s t) .wide
      let d := copy s t (top s t - 4) f.width
      let e := top s t - 4 - f.width.bytes
      exec (.str f) s = .next ((s.setOff t (BitVec.ofNat 16 e)).setMem m) ∧
      ∀ x, m.read x =
        if a.toNat ≤ x ∧ x < a.toNat + f.width.bytes then byteOf d (x - a.toNat)
        else if InSlots s t e (top s t) x then 0 else s.mem.read x

/-- `Load` (R192), whatever the address: the address is the top 32 bits; the value the MMU reads in the
state the pop leaves is pushed; no byte outside the slots popped and pushed changes, and nothing but what
the read does (a fault's cause and latch) and the offset changes. Spec decisions: D17, D19. -/
def Obligations.LoadPushesWhatMmuReads : Prop :=
  ∀ (f : Flags) (s : State), s.mem.wf → StackSound (selected f) s →
    (f.keep = true → top s (selected f) - 4 + 4 + f.width.bytes ≤ 256) →
    ∃ m1 m, let t := selected f
      let n := f.width.bytes
      let a := copy s t (top s t) .wide
      let e := if f.keep then top s t - 4 + 4 else top s t - 4
      let s1 := (s.setOff t (BitVec.ofNat 16 e)).setMem m1
      let r := mmuRead a f.width s1
      let u := (r.2.setOff t (BitVec.ofNat 16 (e + n))).setMem m
      exec (.load f) s = .next u ∧ copy u t (e + n) f.width = r.1 ∧
      (f.keep = true → copy u t e .wide = a) ∧
      (f.keep = false → ∀ x, m1.read x = if InSlots s t e (top s t) x then 0 else s.mem.read x) ∧
      (f.keep = true → ∀ x, ¬ InSlots s t (top s t - 4) e x → m1.read x = s.mem.read x) ∧
      ∀ x, ¬ InSlots s t e (e + n) x → m.read x = m1.read x

/-- `Load` without `KEEP` from memory outside the slots it pops (R192): the bytes at the address, as they
stood before, are pushed little-endian; no fault, and no other byte but the popped slots changes.
Spec decisions: D6. -/
def Obligations.LoadReadsMemory : Prop :=
  ∀ (f : Flags) (s : State), s.mem.wf → StackSound (selected f) s → f.keep = false →
    InMemory s (copy s (selected f) (top s (selected f)) .wide) f.width →
    (∀ x, (copy s (selected f) (top s (selected f)) .wide).toNat ≤ x →
      x < (copy s (selected f) (top s (selected f)) .wide).toNat + f.width.bytes →
      ¬ InSlots s (selected f) (top s (selected f) - 4) (top s (selected f)) x) →
    ∃ m, let t := selected f
      let n := f.width.bytes
      let a := copy s t (top s t) .wide
      let e := top s t - 4
      exec (.load f) s = .next ((s.setOff t (BitVec.ofNat 16 (e + n))).setMem m) ∧
      ∀ x, m.read x =
        if InSlots s t e (e + n) x then s.mem.read (a.toNat + (x - (baseOf s t + e)))
        else if InSlots s t e (top s t) x then 0 else s.mem.read x

/-! ## Control instructions -/

/-- `Jsr`, call form (R200): the 16-bit target is taken from the return stack and the 32-bit return
address `IP0 + 2` left there; an odd target has bit 0 cleared and raises AlignmentFault. `SHORT` is
ignored; with `KEEP` the target stays under the return address.
Spec decisions: D13, D19, D20, D22, D23. -/
def Obligations.JsrCallsTarget : Prop :=
  ∀ (f : Flags) (s : State), f.ret = false → s.mem.wf → StackSound .R s →
    (if f.keep then top s .R - 2 + 2 else top s .R - 2) + 4 ≤ 256 →
    ∃ m, let target := copy s .R (top s .R) .narrow
      let e := if f.keep then top s .R - 2 + 2 else top s .R - 2
      let s1 := if target.getLsbD 0 then raised 0x80000001 s else s
      let u := { (s1.setOff .R (BitVec.ofNat 16 (e + 4))).setMem m with ip := target &&& 0xFFFFFFFE }
      exec (.jsr f) s = .next u ∧ copy u .R (e + 4) .wide = s.ip + 2 ∧
      (f.keep = true → copy u .R e .narrow = target) ∧
      ∀ x, ¬ InSlots s .R (top s .R - 2) (e + 4) x → m.read x = s.mem.read x

/-- `Jsr`, return form (R201): 32 bits `IP0 + 2` are pushed on the primary stack and the target, of the
instruction's width, is popped from the return stack. Spec decisions: D13, D19, D20, D22, D23. -/
def Obligations.JsrReturnsToTarget : Prop :=
  ∀ (f : Flags) (s : State), f.ret = true → s.mem.wf → StackSound .P s → StackSound .R s →
    StacksApart s → top s .P + 4 ≤ 256 →
    ∃ m, let n := f.width.bytes
      let target := copy s .R (top s .R) f.width
      let e := if f.keep then top s .R - n + n else top s .R - n
      let s1 := if target.getLsbD 0 then raised 0x80000001 s else s
      let u := { ((s1.setOff .P (BitVec.ofNat 16 (top s .P + 4))).setOff .R (BitVec.ofNat 16 e)).setMem m
        with ip := target &&& 0xFFFFFFFE }
      exec (.jsr f) s = .next u ∧ copy u .P (top s .P + 4) .wide = s.ip + 2 ∧
      (f.keep = true → copy u .R e f.width = target ∧
        ∀ x, ¬ InSlots s .P (top s .P) (top s .P + 4) x → ¬ InSlots s .R (top s .R - n) e x →
          m.read x = s.mem.read x) ∧
      (f.keep = false → ∀ x, ¬ InSlots s .P (top s .P) (top s .P + 4) x →
        m.read x = if InSlots s .R e (top s .R) x then 0 else s.mem.read x)

/-- R201: a return form on a full primary stack stops the machine at its first push, and nothing but `run`
changes: not the return stack, not `IP`. Spec decisions: D18, D20, D25. -/
def Obligations.JsrReturnOnFullStackOverflows : Prop :=
  ∀ (f : Flags) (s : State), f.ret = true → 256 ≤ top s .P →
    exec (.jsr f) s = .next { s with run := .fatal (.stackOverflow .P s.ip) }

/-- R200 on a full return stack: a call form without `KEEP` takes the target, writes the low half of
`IP0 + 2` over it, and stops the machine at the high half; the depth is 256 again and `IP` stays.
Spec decisions: D18, D20, D25. -/
def Obligations.JsrCallOnFullStackOverflows : Prop :=
  ∀ (f : Flags) (s : State), f.ret = false → f.keep = false → s.mem.wf → StackSound .R s →
    top s .R = 256 →
    ∃ m, exec (.jsr f) s = .next { s.setMem m with run := .fatal (.stackOverflow .R s.ip) } ∧
      ∀ x, m.read x =
        if InSlots s .R 254 256 x then byteOf (s.ip + 2) (x - (baseOf s .R + 254)) else s.mem.read x

/-- With `KEEP`, `Push` (R177), `Load` (R192) and the call form of `Jsr` (R200) on a full stack peek the value
and stop the machine at their push: nothing but `run` changes, but for the fault a `Load`'s read raised.
Spec decisions: D18, D19, D25. -/
def Obligations.KeepFormsOverflowFullStack : Prop :=
  ∀ (f : Flags) (s : State), f.keep = true → s.mem.wf →
    (StackSound (selected f) s → top s (selected f) = 256 →
      exec (.push f) s = .next { s with run := .fatal (.stackOverflow (selected f) s.ip) } ∧
      exec (.load f) s = .next
        { (mmuRead (copy s (selected f) 256 .wide) f.width s).2 with
          run := .fatal (.stackOverflow (selected f) s.ip) }) ∧
    (f.ret = false → StackSound .R s → top s .R = 256 →
      exec (.jsr f) s = .next { s with run := .fatal (.stackOverflow .R s.ip) })

/-- R203: a call form at `IP0 = X` with an even target on the return stack jumps there, and a later
`Jsr(RETURN,SHORT)`, run when the return stack holds what the call left on it, sets `IP` to `X + 2`.
Spec decisions: D19 (`KEEP`), D20, D23 (`X + 2` wraps). -/
def Obligations.CallThenReturnComesBack : Prop :=
  ∀ (f : Flags) (s : State), f.ret = false → s.mem.wf → StackSound .R s → 2 ≤ top s .R →
    s.ip.toNat % 2 = 0 → (copy s .R (top s .R) .narrow).getLsbD 0 = false →
    (if f.keep then top s .R else top s .R - 2) + 4 ≤ 256 →
    ∃ u, exec (.jsr f) s = .next u ∧ u.ip = copy s .R (top s .R) .narrow ∧
      ∀ (g : Flags) (v : State), g.ret = true → g.short = true → v.mem.wf →
        StackSound .P v → StackSound .R v → StacksApart v → top v .P + 4 ≤ 256 →
        top v .R = top u .R → copy v .R (top v .R) .wide = copy u .R (top u .R) .wide →
        ∃ x, exec (.jsr g) v = .next x ∧ x.ip = s.ip + 2 ∧ top x .P = top v .P + 4 ∧
          (g.keep = false → top x .R = top v .R - 4)

/-- R236: the three instructions of the sequence `IRet`, each run with `IP` moved past the one before it,
go to `SIC.RA` (bit 0 cleared, with AlignmentFault, where it is odd), leave the return stack as deep as
before with the slots above it zeroed, push the 32-bit address after the `Jsr` on the primary stack, and
change no other byte and no other state. Spec decisions: D13, D22, D34. -/
def Obligations.ReturnFromInterruptSequence : Prop :=
  ∀ (s : State), s.mem.wf → StackSound .P s → StackSound .R s → StacksApart s →
    top s .P + 4 ≤ 256 → top s .R + 4 ≤ 256 →
    ∃ s1 s2 m, let rs : Flags := { ret := true, short := true }
      let s0 := if s.sic.ra.getLsbD 0 then raised 0x80000001 s else s
      let u := { (s0.setOff .P (BitVec.ofNat 16 (top s .P + 4))).setMem m
        with ip := s.sic.ra &&& 0xFFFFFFFE }
      exec (.lit rs 0x308) s = .next s1 ∧
      exec (.load rs) { s1 with ip := s.ip + 6 } = .next s2 ∧
      exec (.jsr rs) { s2 with ip := s.ip + 8 } = .next u ∧
      copy u .P (top s .P + 4) .wide = s.ip + 10 ∧
      (∀ x, InSlots s .R (top s .R) (top s .R + 4) x → m.read x = 0) ∧
      ∀ x, ¬ InSlots s .P (top s .P) (top s .P + 4) x → ¬ InSlots s .R (top s .R) (top s .R + 4) x →
        m.read x = s.mem.read x

/-- `Cmp` (R205): the three bits hold the unsigned comparison of the value popped first with the one
popped second; nothing is pushed but what `KEEP` pushes back. Spec decisions: D17, D19. -/
def Obligations.CmpWritesCondition : Prop :=
  ∀ (f : Flags) (s : State), s.mem.wf → StackSound (selected f) s →
    ∃ m, let t := selected f
      let n := f.width.bytes
      let v1 := copy s t (top s t) f.width
      let v2 := if f.keep then v1 else copy s t (top s t - n) f.width
      let e := if f.keep then top s t - n + n else top s t - n - n
      let u := { (s.setOff t (BitVec.ofNat 16 e)).setMem m with
        cr := ⟨decide (v1 = v2), decide (v1.toNat > v2.toNat), decide (v1.toNat < v2.toNat)⟩ }
      exec (.cmp f) s = .next u ∧
      (f.keep = false → ∀ x, m.read x = if InSlots s t e (top s t) x then 0 else s.mem.read x) ∧
      (f.keep = true → copy u t e f.width = v1 ∧
        ∀ x, ¬ InSlots s t (top s t - n) e x → m.read x = s.mem.read x)

/-- R24: after any `Cmp` that was carried out, in whatever state, exactly one condition bit is 1. -/
def Obligations.CmpLeavesExactlyOneBit : Prop :=
  ∀ (f : Flags) (s u : State), s.run = .running → exec (.cmp f) s = .next u → u.run = .running →
    u.cr = ⟨true, false, false⟩ ∨ u.cr = ⟨false, true, false⟩ ∨ u.cr = ⟨false, false, true⟩

/-- `Halt` (R208): `run` becomes `Halted` and nothing else changes, `IP` included. -/
def Obligations.HaltStopsMachine : Prop :=
  ∀ (f : Flags) (s : State), exec (.halt f) s = .next { s with run := .halted }

/-! ## Interrupts and the cycle -/

/-- R222: `gen_int` stores the low 31 bits of the cause with the exception flag in the top bit, sets the
pending latch and changes nothing else; `raise Fault` and `raise SoftwareInterrupt` are calls of it. -/
def Obligations.GenIntSetsCauseAndPending : Prop :=
  (∀ (c : Word) (e : Bool) (s : State), ∃ c', genInt c e s = raised c' s ∧ c'.getLsbD 31 = e ∧
    ∀ k, k < 31 → c'.getLsbD k = c.getLsbD k) ∧
  (∀ (k : FaultKind) (s : State), raiseFault k s = genInt k.code true s) ∧
  ∀ (v : Word) (s : State), raiseSoftwareInterrupt v s = genInt v false s

/-- R226: a cycle that starts with an interrupt pending saves `IP` in `SIC.RA`, loads `IP` from `SIC.JV`
with bit 0 cleared, clears the latch, changes nothing else, and in the same cycle runs what a cycle from
that state runs. Spec decisions: D22. -/
def Obligations.PendingInterruptEntersFirst : Prop :=
  ∀ (s : State), Ready s → s.pending = true →
    step s = step { s with
      sic := { s.sic with ra := s.ip }, ip := s.sic.jv &&& 0xFFFFFFFE, pending := false }

/-- R160: `SetIP` of an even address sets `IP` only; of an odd one it clears bit 0 and raises
AlignmentFault. Spec decisions: D13, D22. -/
def Obligations.SetIpClearsBitZero : Prop :=
  ∀ (v : Word) (s : State),
    (v.toNat % 2 = 0 → setIp v s = { s with ip := v }) ∧
    (v.toNat % 2 = 1 → setIp v s = { raised 0x80000001 s with ip := v - 1 })

/-- The gate passes exactly when no gate bit is set or a set gate bit matches, and it applies to every
instruction (R155). Where it fails the instruction is skipped: `IP` advances past it, its immediate is not
read and nothing else changes (R156). Where it passes its immediate is read, it is executed and `IP`
advances unless it is a `Jsr` or has stopped the machine (R157 to R159; that `exec` is the execution alone
is log 8). Spec decisions: D21, D24. -/
def Obligations.GateMatchesCondition : Prop :=
  (∀ (f : Flags) (c : CondReg), gate f c = true ↔
    (f.ifEqual = false ∧ f.ifGreater = false ∧ f.ifLess = false) ∨
      (f.ifEqual = true ∧ c.eq = true) ∨ (f.ifGreater = true ∧ c.gt = true) ∨
      (f.ifLess = true ∧ c.lt = true)) ∧
  ∀ (i : Instr) (ip0 : Word) (s : State),
    (gate i.flags s.cr = false → dispatch i ip0 s = .next (advance i ip0 s)) ∧
    (gate i.flags s.cr = true → dispatch i ip0 s =
      afterExec i ip0 (exec (withImmediate i ip0 s).1 (withImmediate i ip0 s).2))

/-- A STEP RUNS THE DECODED INSTRUCTION (R151, R156, R157, R159): when the bytes at `IP` decode to `i`, a
cycle with no interrupt pending skips past `i` where its gate fails, and else does what `exec i` does,
and then moves past `i` unless `i` is a `Jsr` or has stopped the machine.
Spec decisions: D15, D21, D24. -/
def Obligations.StepRunsDecodedInstruction : Prop :=
  ∀ (i : Instr) (s : State), Ready s → s.pending = false → s.params.valid → s.ip.toNat % 2 = 0 →
    0x400 ≤ s.ip.toNat → s.ip.toNat + i.length ≤ s.params.memSize →
    decode (s.mem.bytes s.ip.toNat i.length) = .ok (i, []) →
    (gate i.flags s.cr = false →
      step s = .next { s with ip := s.ip + BitVec.ofNat 32 i.length }) ∧
    (gate i.flags s.cr = true → ∀ u, exec i s = .next u →
      (u.run ≠ .running → step s = .next u) ∧
      (u.run = .running → (∃ f, i = .jsr f) → step s = .next u) ∧
      (u.run = .running → (∀ f, i ≠ .jsr f) →
        step s = .next { u with ip := s.ip + BitVec.ofNat 32 i.length }))

/-- R106, R154: an illegal opcode byte stops the machine with its address and the byte, whatever the flag
byte and the condition register hold; nothing but `run` changes. Spec decisions: D4, D24, D25. -/
def Obligations.IllegalOpcodeStopsMachine : Prop :=
  ∀ (s : State), Ready s → s.pending = false → InMemory s s.ip .narrow →
    0x0A < (s.mem.read s.ip.toNat).toNat →
    step s = .next { s with run := .fatal (.invalidOpcode s.ip (s.mem.read s.ip.toNat)) }

/-- R153: a fetch that faults raises its fault and runs as a `Nop`. Spec decisions: D13, D15. -/
def Obligations.FaultingFetchRunsAsNop : Prop :=
  ∀ (s : State), Ready s → s.pending = false → s.ip.toNat % 2 = 0 →
    (s.ip.toNat ≤ 0x3FF →
      s.ip.toNat ∉ [0x000, 0x002, 0x004, 0x006, 0x00C, 0x100, 0x200, 0x204, 0x300, 0x304, 0x308] →
      step s = .next { raised 0x80000003 s with ip := s.ip + 2 }) ∧
    (0x400 ≤ s.ip.toNat → s.ip.toNat ≤ s.params.memWinHi → s.params.memSize < s.ip.toNat + 2 →
      step s = .next { raised 0x80000002 s with ip := s.ip + 2 }) ∧
    (0x400 ≤ s.ip.toNat → s.params.memWinHi < s.ip.toNat →
      step s = .next { raised 0x80000004 s with ip := s.ip + 2 })

/-- R163, R164, R34, R243, R282: where the CORE is held, halted, fatally stopped or stopped by the host, a
waiting byte is emitted and the device is ready, and nothing else changes; with none waiting there is no
further step. Three clauses are the model's choice: that the device always takes the waiting byte at the
next step (log 3; R242 and I26 allow a device that never does), that it still does so after an external
stop (log 5), and that `step` answers a fault where no agent moves (log 4). Spec decisions: D30, D38. -/
def Obligations.HeldOrStoppedCoreLeavesTheDevice : Prop :=
  ∀ (s : State),
    (s.run ≠ .running ∨ s.stopped = true ∨ s.outReady = false → ∀ b q, s.outq = b :: q →
      step s = .next { s with outq := q, outputTrace := s.outputTrace ++ [b], outReady := true }) ∧
    (s.run = .halted → s.outq = [] → step s = .fault .halted) ∧
    (∀ info, s.run = .fatal info → s.outq = [] → step s = .fault (.fatal info)) ∧
    (s.run = .running → s.stopped = true → s.outq = [] → step s = .fault .stopped) ∧
    (s.run = .running → s.stopped = false → s.outReady = false → s.outq = [] →
      step s = .fault .held)

/-! ## Reset and boot -/

/-- R35: the reset values. The memory lists nothing, so every byte is 0; the two parameters are the model's
choice (log 1), and so is that the host has not stopped the CORE (log 5).
Spec decisions: D26, D27, D28, D30. -/
def Obligations.ResetValues : Prop :=
  State.reset.ip = 0x600 ∧ State.reset.cr = ⟨false, false, false⟩ ∧
    State.reset.primary = ⟨0x0400, 0⟩ ∧ State.reset.ret = ⟨0x0500, 0⟩ ∧
    State.reset.sic = ⟨0, 0, 0⟩ ∧ State.reset.pending = false ∧ State.reset.outReady = true ∧
    State.reset.outq = [] ∧ State.reset.outputTrace = [] ∧ State.reset.run = .running ∧
    State.reset.stopped = false ∧ (∀ a, State.reset.mem.read a = 0) ∧
    State.reset.params = ⟨0x2000, 0x1FFF⟩

/-- R270: the three refusals, in order, and otherwise the initial state with the image at 0x600 and every
other byte 0 (that the host has not stopped the CORE there is the model's choice, log 5,
and so is that a `MEM_WIN_HI` outside the bounds of R9 is not refused, log 14).
Spec decisions: D26, D27, D28, D29, D30. -/
def Obligations.BootLoadsOrRefuses : Prop :=
  ∀ (p : Params) (image : List Byte),
    (p.memSize < 0x600 ∨ 2 ^ 32 < p.memSize → boot p image = .error .badMemorySize) ∧
    (0x600 ≤ p.memSize → p.memSize ≤ 2 ^ 32 →
      (image.length % 2 = 1 → boot p image = .error .oddImage) ∧
      (image.length % 2 = 0 → p.memSize < 0x600 + image.length → boot p image = .error .imageTooLarge) ∧
      (image.length % 2 = 0 → 0x600 + image.length ≤ p.memSize →
        ∃ m : Memory, boot p image = .ok
          { ip := 0x600, cr := ⟨false, false, false⟩, primary := ⟨0x0400, 0⟩, ret := ⟨0x0500, 0⟩,
            sic := ⟨0, 0, 0⟩, pending := false, outReady := true, outq := [], outputTrace := [],
            run := .running, stopped := false, mem := m, params := p } ∧
          ∀ a, m.read a =
            if 0x600 ≤ a ∧ a < 0x600 + image.length then image.getD (a - 0x600) 0 else 0))

/-- The reset state meets the invariant. Its clause on the two parameters rests on the pair 0x2000 and 0x1FFF,
which is the model's choice (log 1). -/
def Obligations.ResetMeetsInvariant : Prop := Invariant State.reset

/-- Every machine that boots, with whatever parameters R9 allows and whatever image, meets the invariant. -/
def Obligations.BootMeetsInvariant : Prop :=
  ∀ (p : Params) (image : List Byte) (s : State), p.valid → boot p image = .ok s → Invariant s

/-! ## The whole machine -/

/-- Every step, of the CORE or of the device, keeps the invariant: the memory's canonical form and bounds
(R32), `IP` even (R21), the output handshake (R241), at most one condition bit (R24), no interrupt
pending when halted (R235), the parameters' constraints (R9). Spec decisions: D22, D26. -/
def Obligations.EveryStepKeepsInvariant : Prop :=
  ∀ (s u : State), Invariant s → step s = .next u → Invariant u

/-- While it runs and the host has not stopped it, a machine in the invariant always has a next state: no
instruction, address or datum ends a run but `Halt` and the fatal faults, and those are next states (R164,
R231). Where the output holds the CORE, the next state is the device's step: that the device always takes
the byte is the model's choice (log 3; R242 and I26 allow one that holds the CORE for ever).
Spec decisions: D15, D24. -/
def Obligations.RunningMachineAlwaysSteps : Prop :=
  ∀ (s : State), Invariant s → s.run = .running → s.stopped = false → ∃ u, step s = .next u

/-- Every instruction in every state answers a next state, in which `run` has changed only by `Halt` or by
a StackOverflow that names the instruction's address (R232), a pending interrupt stays pending (R223),
the output trace, the parameters and the host's stop are untouched (R36, R243, R282).
Spec decisions: D25, D38. -/
def Obligations.EveryInstructionAnswersNext : Prop :=
  ∀ (i : Instr) (s : State), ∃ u, exec i s = .next u ∧
    (u.run = s.run ∨ (u.run = .halted ∧ ∃ f, i = .halt f) ∨
      ∃ t, u.run = .fatal (.stackOverflow t s.ip)) ∧
    (s.pending = true → u.pending = true) ∧ u.outputTrace = s.outputTrace ∧ u.params = s.params ∧
    u.stopped = s.stopped

/-- R23: no instruction but `Cmp` changes a condition bit. -/
def Obligations.OnlyCmpWritesCondition : Prop :=
  ∀ (i : Instr) (s u : State), exec i s = .next u → (∀ f, i ≠ .cmp f) → u.cr = s.cr

/-- R22: no instruction but `Jsr` sets `IP`; for the others it is the wrapper that advances it. -/
def Obligations.OnlyJsrSetsIp : Prop :=
  ∀ (i : Instr) (s u : State), exec i s = .next u → (∀ f, i ≠ .jsr f) → u.ip = s.ip

/-- R30, R140, R240: no instruction but `Str` writes the jump vector, the return address, a stack base, the
output queue or the output flag. -/
def Obligations.OnlyStrReachesControlRegisters : Prop :=
  ∀ (i : Instr) (s u : State), exec i s = .next u → (∀ f, i ≠ .str f) →
    u.sic.jv = s.sic.jv ∧ u.sic.ra = s.sic.ra ∧ u.primary.base = s.primary.base ∧
      u.ret.base = s.ret.base ∧ u.outq = s.outq ∧ u.outReady = s.outReady

/-- R83: output bytes are emitted in the order the CORE writes them. A step leaves the output trace and
adds what it wrote behind the bytes that wait, or appends to the trace the byte that waited longest; so over
any run, where step `k` writes `w k`, the trace with the waiting bytes behind it grows by `w 0`, `w 1`, …
in this order. Nothing emitted is taken back or overtaken. -/
def Obligations.OutputIsEmittedInOrder : Prop :=
  (∀ (s u : State), step s = .next u →
    (u.outputTrace = s.outputTrace ∧ ∃ q, u.outq = s.outq ++ q) ∨
      ∃ b, s.outq = b :: u.outq ∧ u.outputTrace = s.outputTrace ++ [b]) ∧
  ∀ (n : Nat) (r : Nat → State), (∀ k, k < n → step (r k) = .next (r (k + 1))) →
    ∃ w : Nat → List Byte,
      (∀ k, k < n →
        ((r (k + 1)).outputTrace = (r k).outputTrace ∧ (r (k + 1)).outq = (r k).outq ++ w k) ∨
          w k = [] ∧ ∃ b, (r k).outq = b :: (r (k + 1)).outq ∧
            (r (k + 1)).outputTrace = (r k).outputTrace ++ [b]) ∧
      (r n).outputTrace ++ (r n).outq =
        (r 0).outputTrace ++ (r 0).outq ++ (List.range n).flatMap w

/-- R165: the output queue and the output trace change no value the CORE computes: two states that differ
in them alone run cycles to states that differ in them alone. -/
def Obligations.OutputDoesNotAffectCore : Prop :=
  ∀ (s s' u : State), forgetOutput s = forgetOutput s' → cycle s = .next u →
    ∃ u', cycle s' = .next u' ∧ forgetOutput u = forgetOutput u'
end

