-- ==== Sys2Proof/Laws/Encoding.lean ====
section
/-!
SUPPORT. The laws of the fields of an instruction word: the status-flag byte and its flags, the two bytes of
a half, the two halves of a word, and the three cases of the opcode map.
-/

namespace Sys2Proof

@[simp] theorem Flags.ofByte_toByte (f : Flags) : Flags.ofByte f.toByte = f := by
  obtain ⟨a, b, c, d, e, g, r⟩ := f
  revert r a b c d e g
  decide

@[simp] theorem Flags.toByte_ofByte (b : Byte) : (Flags.ofByte b).toByte = b := by revert b; decide

@[simp] theorem halfOfBytes_lo (lo hi : Byte) : (halfOfBytes lo hi).extractLsb' 0 8 = lo := by
  apply BitVec.eq_of_getLsbD_eq
  intro i h
  simp only [halfOfBytes, BitVec.getLsbD_append, BitVec.getLsbD_extractLsb']
  interval_cases i <;> simp

@[simp] theorem halfOfBytes_hi (lo hi : Byte) : (halfOfBytes lo hi).extractLsb' 8 8 = hi := by
  apply BitVec.eq_of_getLsbD_eq
  intro i h
  simp only [halfOfBytes, BitVec.getLsbD_append, BitVec.getLsbD_extractLsb']
  interval_cases i <;> simp

/-- Every half is the two bytes it is stored as. -/
theorem halfOfBytes_split (h : Half) : halfOfBytes (h.extractLsb' 0 8) (h.extractLsb' 8 8) = h := by
  apply BitVec.eq_of_getLsbD_eq
  intro i hi
  simp only [halfOfBytes, BitVec.getLsbD_append, BitVec.getLsbD_extractLsb']
  interval_cases i <;> simp

@[simp] theorem wordOfHalves_lo (lo hi : Half) : (wordOfHalves lo hi).extractLsb' 0 16 = lo := by
  apply BitVec.eq_of_getLsbD_eq
  intro i h
  simp only [wordOfHalves, BitVec.getLsbD_append, BitVec.getLsbD_extractLsb']
  interval_cases i <;> simp

@[simp] theorem wordOfHalves_hi (lo hi : Half) : (wordOfHalves lo hi).extractLsb' 16 16 = hi := by
  apply BitVec.eq_of_getLsbD_eq
  intro i h
  simp only [wordOfHalves, BitVec.getLsbD_append, BitVec.getLsbD_extractLsb']
  interval_cases i <;> simp

/-- Every word is the two halves it is stored as. -/
theorem wordOfHalves_split (w : Word) :
    wordOfHalves (w.extractLsb' 0 16) (w.extractLsb' 16 16) = w := by
  apply BitVec.eq_of_getLsbD_eq
  intro i hi
  simp only [wordOfHalves, BitVec.getLsbD_append, BitVec.getLsbD_extractLsb']
  interval_cases i <;> simp

/-- The opcode map (R105, R106): an illegal byte, the byte of `Lit`, or the byte of another instruction,
whose flags and opcode byte are the ones it was read from. -/
theorem Instr.ofOpcode_cases (op : Byte) (f : Flags) :
    (0x0A < op.toNat ∧ Instr.ofOpcode op f 0 = none) ∨
      (op = 1 ∧ Instr.ofOpcode op f 0 = some (.lit f 0)) ∨
      (op ≠ 1 ∧ ∃ i, Instr.ofOpcode op f 0 = some i ∧ (∀ f imm, i ≠ .lit f imm) ∧ i.flags = f ∧
        i.opcodeByte = op) := by
  by_cases h : 0x0A < op.toNat
  · left; refine ⟨h, ?_⟩; unfold Instr.ofOpcode; split <;> first | omega | rfl
  · right
    have ho : op = BitVec.ofNat 8 op.toNat := by simp
    generalize op.toNat = n at *
    subst ho
    interval_cases n <;> simp [Instr.ofOpcode, Instr.flags, Instr.opcodeByte]

end Sys2Proof
end

