-- ==== Sys2Proof/Laws/Memory.lean ====
section
/-!
SUPPORT. The laws of the memory: a read after a write, what the raw accessors read and write, and the
canonical form, which every memory operation keeps.
-/

namespace Sys2Proof.Machine

@[simp] theorem Memory.read_nil (a : Nat) : Memory.read [] a = 0 := rfl

theorem Memory.read_cons (c : Host.Cell) (m : Memory) (a : Nat) :
    Memory.read (c :: m) a = if c.1 = a then c.2 else Memory.read m a := rfl

/-- A canonical memory reads as unlisted below its first entry. -/
theorem Memory.read_of_lt (m : Memory) (a : Nat) (h : ∀ c ∈ m, a < c.1) : m.read a = 0 := by
  induction m with
  | nil => rfl
  | cons c m ih =>
    have hc := h c (List.mem_cons_self ..)
    rw [Memory.read_cons, if_neg (by omega)]
    exact ih fun d hd => h d (List.mem_cons_of_mem _ hd)

theorem Memory.read_insert (m : Memory) (a : Nat) (b : Byte) (x : Nat) (h : m.read a = 0) :
    (Memory.insert m a b).read x = if x = a then b else m.read x := by
  unfold Memory.insert Memory.unlisted
  split
  · rename_i hb
    split
    · rename_i hx; rw [hx, h, hb]
    · rfl
  · rw [Memory.read_cons]
    by_cases hx : x = a
    · simp [hx]
    · simp [hx, Ne.symm hx]

/-- A canonical memory reads as unlisted at the index of an entry that is taken away. -/
theorem Memory.wf.tail_lt {c : Host.Cell} {m : Memory} (h : Memory.wf (c :: m)) :
    ∀ d ∈ m, c.1 < d.1 := (List.pairwise_cons.1 h.1).1

theorem Memory.wf.tail {c : Host.Cell} {m : Memory} (h : Memory.wf (c :: m)) : Memory.wf m :=
  ⟨(List.pairwise_cons.1 h.1).2, fun d hd => h.2 d (List.mem_cons_of_mem _ hd)⟩

/-- The read after a write of one byte, in any memory in canonical form. -/
theorem Memory.read_write (m : Memory) (a : Nat) (b : Byte) (x : Nat) (h : Memory.wf m) :
    (m.write a b).read x = if x = a then b else m.read x := by
  induction m with
  | nil => simpa [Memory.write] using Memory.read_insert [] a b x rfl
  | cons c m ih =>
    unfold Memory.write
    split
    · rename_i hlt
      refine Memory.read_insert _ _ _ _ (Memory.read_of_lt _ _ fun d hd => ?_)
      rcases List.mem_cons.1 hd with rfl | hd
      · exact hlt
      · exact lt_trans hlt (h.tail_lt d hd)
    · split
      · rename_i ha
        subst ha
        rw [Memory.read_insert _ _ _ _ (Memory.read_of_lt _ _ h.tail_lt), Memory.read_cons]
        split
        · rfl
        · rw [if_neg (Ne.symm ‹_›)]
      · rename_i hlt hne
        rw [Memory.read_cons, Memory.read_cons, ih h.tail]
        by_cases hx : c.1 = x
        · have : x ≠ a := by omega
          simp [hx, this]
        · simp [hx]

theorem Memory.insert_wf (m : Memory) (a : Nat) (b : Byte) (h : Memory.wf m)
    (ha : ∀ c ∈ m, a < c.1) : Memory.wf (Memory.insert m a b) := by
  unfold Memory.insert
  split
  · exact h
  · rename_i hb
    refine ⟨List.pairwise_cons.2 ⟨ha, h.1⟩, fun c hc => ?_⟩
    rcases List.mem_cons.1 hc with rfl | hc
    · exact hb
    · exact h.2 c hc

theorem Memory.mem_insert {m : Memory} {a : Nat} {b : Byte} {c : Host.Cell}
    (h : c ∈ Memory.insert m a b) : c = (a, b) ∨ c ∈ m := by
  unfold Memory.insert at h
  split at h
  · exact .inr h
  · exact List.mem_cons.1 h

/-- Every entry of a memory after a write is the byte written or an entry it had before. -/
theorem Memory.mem_write {m : Memory} {a : Nat} {b : Byte} {c : Host.Cell} (h : c ∈ m.write a b) :
    c = (a, b) ∨ c ∈ m := by
  induction m with
  | nil => exact Memory.mem_insert h
  | cons d m ih =>
    unfold Memory.write at h
    split at h
    · exact Memory.mem_insert h
    · split at h
      · rcases Memory.mem_insert h with h | h
        · exact .inl h
        · exact .inr (List.mem_cons_of_mem _ h)
      · rcases List.mem_cons.1 h with rfl | h
        · exact .inr (List.mem_cons_self ..)
        · rcases ih h with h | h
          · exact .inl h
          · exact .inr (List.mem_cons_of_mem _ h)

/-- A write keeps the canonical form. -/
theorem Memory.write_wf (m : Memory) (a : Nat) (b : Byte) (h : Memory.wf m) :
    Memory.wf (m.write a b) := by
  induction m with
  | nil => exact Memory.insert_wf [] a b h (by simp)
  | cons c m ih =>
    unfold Memory.write
    split
    · rename_i hlt
      refine Memory.insert_wf _ _ _ h fun d hd => ?_
      rcases List.mem_cons.1 hd with rfl | hd
      · exact hlt
      · exact lt_trans hlt (h.tail_lt d hd)
    · split
      · rename_i ha
        exact Memory.insert_wf _ _ _ h.tail fun d hd => ha ▸ h.tail_lt d hd
      · rename_i hlt hne
        refine ⟨List.pairwise_cons.2 ⟨fun d hd => ?_, (ih h.tail).1⟩, fun d hd => ?_⟩
        · rcases Memory.mem_write hd with rfl | hd
          · show c.1 < a
            omega
          · exact h.tail_lt d hd
        · rcases List.mem_cons.1 hd with rfl | hd
          · exact h.2 d (List.mem_cons_self ..)
          · exact (ih h.tail).2 d hd

/-- A write inside the memory keeps every entry inside it. -/
theorem Memory.write_within (size : Nat) (m : Memory) (a : Nat) (b : Byte)
    (h : Memory.within size m) (ha : a < size) : Memory.within size (m.write a b) := by
  intro c hc
  rcases Memory.mem_write hc with rfl | hc
  · exact ha
  · exact h c hc

/-- Two memories in canonical form that read alike are the same data. -/
theorem Memory.eq_of_read {m k : Memory} (hm : Memory.wf m) (hk : Memory.wf k)
    (h : ∀ a, m.read a = k.read a) : m = k := by
  induction m generalizing k with
  | nil =>
    cases k with
    | nil => rfl
    | cons d k =>
      have := h d.1
      rw [Memory.read_cons, if_pos rfl] at this
      exact absurd this.symm (hk.2 d (List.mem_cons_self ..))
  | cons c m ih =>
    have hc : c.2 ≠ 0 := hm.2 c (List.mem_cons_self ..)
    have hcr : Memory.read (c :: m) c.1 = c.2 := by rw [Memory.read_cons, if_pos rfl]
    cases k with
    | nil => exact absurd (hcr.symm.trans (h c.1)) hc
    | cons d k =>
      have hd : d.2 ≠ 0 := hk.2 d (List.mem_cons_self ..)
      have hdr : Memory.read (d :: k) d.1 = d.2 := by rw [Memory.read_cons, if_pos rfl]
      have hkey : c.1 = d.1 := by
        rcases lt_trichotomy c.1 d.1 with hlt | heq | hgt
        · refine absurd ?_ hc
          rw [← hcr, h c.1]
          refine Memory.read_of_lt _ _ fun e he => ?_
          rcases List.mem_cons.1 he with rfl | he
          · exact hlt
          · exact lt_trans hlt (hk.tail_lt e he)
        · exact heq
        · refine absurd ?_ hd
          rw [← hdr, ← h d.1]
          refine Memory.read_of_lt _ _ fun e he => ?_
          rcases List.mem_cons.1 he with rfl | he
          · exact hgt
          · exact lt_trans hgt (hm.tail_lt e he)
      have hval : c.2 = d.2 := by rw [← hcr, h c.1, hkey, hdr]
      have htail : m = k := by
        refine ih hm.tail hk.tail fun a => ?_
        by_cases ha : c.1 = a
        · subst ha
          rw [Memory.read_of_lt _ _ hm.tail_lt, hkey, Memory.read_of_lt _ _ hk.tail_lt]
        · have := h a
          rw [Memory.read_cons, Memory.read_cons, if_neg ha, if_neg (hkey ▸ ha)] at this
          exact this
      rw [htail, Prod.ext hkey hval]

/-! ## The raw accessors (R51, R52) -/

theorem memWrite_wf (n : Nat) (m : Memory) (i v : Nat) (h : Memory.wf m) :
    Memory.wf (memWrite m i n v) := by
  induction n generalizing m i v with
  | zero => exact h
  | succ n ih => exact ih _ _ _ (Memory.write_wf _ _ _ h)

theorem memWrite_within (size n : Nat) (m : Memory) (i v : Nat) (h : Memory.within size m)
    (hi : i + n ≤ size) : Memory.within size (memWrite m i n v) := by
  induction n generalizing m i v with
  | zero => exact h
  | succ n ih => exact ih _ _ _ (Memory.write_within _ _ _ _ h (by omega)) (by omega)

/-- What a raw write leaves at every index (R52). -/
theorem read_memWrite (n : Nat) (m : Memory) (i v a : Nat) (h : Memory.wf m) :
    (memWrite m i n v).read a =
      if i ≤ a ∧ a < i + n then BitVec.ofNat 8 (v / 2 ^ (8 * (a - i))) else m.read a := by
  induction n generalizing m i v with
  | zero => rw [if_neg (by omega)]; rfl
  | succ n ih =>
    show (memWrite (m.write i (BitVec.ofNat 8 v)) (i + 1) n (v / 2 ^ 8)).read a = _
    rw [ih _ _ _ (Memory.write_wf _ _ _ h), Memory.read_write _ _ _ _ h]
    by_cases h1 : i + 1 ≤ a ∧ a < i + 1 + n
    · rw [if_pos h1, if_pos (by omega), Nat.div_div_eq_div_mul, ← pow_add]
      congr 3
      omega
    · rw [if_neg h1]
      by_cases h2 : a = i
      · rw [if_pos h2, if_pos (by omega), h2]
        simp
      · rw [if_neg h2, if_neg (by omega)]

/-- A raw read depends on the bytes it covers only. -/
theorem memRead_congr (n : Nat) (m k : Memory) (i : Nat)
    (h : ∀ a, i ≤ a → a < i + n → m.read a = k.read a) : memRead m i n = memRead k i n := by
  induction n generalizing i with
  | zero => rfl
  | succ n ih =>
    show (m.read i).toNat + _ * _ = (k.read i).toNat + _ * _
    rw [h i (by omega) (by omega), ih (i + 1) fun a h1 h2 => h a (by omega) (by omega)]

theorem memRead_lt (n : Nat) (m : Memory) (i : Nat) : memRead m i n < 2 ^ (8 * n) := by
  induction n generalizing i with
  | zero => simp [memRead]
  | succ n ih =>
    have h1 := (m.read i).isLt
    have h2 := ih (i + 1)
    have : 2 ^ (8 * (n + 1)) = 2 ^ 8 * 2 ^ (8 * n) := by rw [← pow_add]; congr 1; omega
    show (m.read i).toNat + 2 ^ 8 * memRead m (i + 1) n < _
    omega

/-- A raw read of bytes that hold `v`, little-endian, is `v` (R51). -/
theorem memRead_eq (n : Nat) (m : Memory) (i v : Nat)
    (h : ∀ j, j < n → m.read (i + j) = BitVec.ofNat 8 (v / 2 ^ (8 * j))) :
    memRead m i n = v % 2 ^ (8 * n) := by
  induction n generalizing i v with
  | zero => simp [memRead, Nat.mod_one]
  | succ n ih =>
    have h0 := h 0 (by omega)
    have := ih (i + 1) (v / 2 ^ 8) fun j hj => by
      have := h (j + 1) (by omega)
      rw [Nat.div_div_eq_div_mul, ← pow_add, show 8 + 8 * j = 8 * (j + 1) by omega, ← this]
      congr 1
      omega
    show (m.read i).toNat + 2 ^ 8 * memRead m (i + 1) n = _
    rw [this, show i = i + 0 from rfl, h0]
    have e : 2 ^ (8 * (n + 1)) = 2 ^ 8 * 2 ^ (8 * n) := by rw [← pow_add]; congr 1; omega
    rw [e, Nat.mod_mul]
    simp

/-- The read after a raw write at the same index and of the same length (R51, R52). -/
theorem memRead_memWrite (n : Nat) (m : Memory) (i v : Nat) (h : Memory.wf m) :
    memRead (memWrite m i n v) i n = v % 2 ^ (8 * n) :=
  memRead_eq n _ i v fun j hj => by
    rw [read_memWrite n m i v _ h, if_pos (by omega), Nat.add_sub_cancel_left]

/-! ## The program load (R271) -/

theorem Memory.load_wf (bs : List Byte) (m : Memory) (i : Nat) (h : Memory.wf m) :
    Memory.wf (m.load i bs) := by
  induction bs generalizing m i with
  | nil => exact h
  | cons b bs ih => exact ih _ _ (Memory.write_wf _ _ _ h)

theorem Memory.load_within (size : Nat) (bs : List Byte) (m : Memory) (i : Nat)
    (h : Memory.within size m) (hi : i + bs.length ≤ size) :
    Memory.within size (m.load i bs) := by
  induction bs generalizing m i with
  | nil => exact h
  | cons b bs ih =>
    simp only [List.length_cons] at hi
    exact ih _ _ (Memory.write_within _ _ _ _ h (by omega)) (by omega)

/-- What a program load leaves at every index. -/
theorem Memory.read_load (bs : List Byte) (m : Memory) (i a : Nat) (h : Memory.wf m) :
    (m.load i bs).read a = if i ≤ a ∧ a < i + bs.length then bs.getD (a - i) 0 else m.read a := by
  induction bs generalizing m i with
  | nil => rw [if_neg (by simp)]; rfl
  | cons b bs ih =>
    show ((m.write i b).load (i + 1) bs).read a = _
    rw [ih _ _ (Memory.write_wf _ _ _ h), Memory.read_write _ _ _ _ h, List.length_cons]
    by_cases h1 : i + 1 ≤ a ∧ a < i + 1 + bs.length
    · rw [if_pos h1, if_pos (by omega), show a - i = (a - (i + 1)) + 1 by omega]
      rfl
    · rw [if_neg h1]
      by_cases h2 : a = i
      · subst h2
        rw [if_pos rfl, if_pos (by omega)]
        simp
      · rw [if_neg h2, if_neg (by omega)]

end Sys2Proof.Machine
end

