-- ==== Sys2Proof/Laws/State.lean ====
section
/-!
SUPPORT. One lemma per field per update of the state, so that no proof unfolds a record update.
-/

namespace Sys2Proof.Machine

/-! ## The stacks' control fields -/

@[simp] theorem StackId.other_other (t : StackId) : t.other.other = t := by cases t <;> rfl
theorem StackId.other_ne (t : StackId) : t.other ≠ t := by cases t <;> decide
theorem StackId.ne_other (t : StackId) : t ≠ t.other := by cases t <;> decide

@[simp] theorem State.stack_P (s : State) : s.stack .P = s.primary := rfl
@[simp] theorem State.stack_R (s : State) : s.stack .R = s.ret := rfl
@[simp] theorem State.setStack_P (s : State) (k : Stack) : s.setStack .P k = { s with primary := k } := rfl
@[simp] theorem State.setStack_R (s : State) (k : Stack) : s.setStack .R k = { s with ret := k } := rfl

@[simp] theorem State.setOff_ip (s : State) (t : StackId) (o : Half) : (s.setOff t o).ip = s.ip := by
  cases t <;> rfl
@[simp] theorem State.setOff_cr (s : State) (t : StackId) (o : Half) : (s.setOff t o).cr = s.cr := by
  cases t <;> rfl
@[simp] theorem State.setOff_sic (s : State) (t : StackId) (o : Half) : (s.setOff t o).sic = s.sic := by
  cases t <;> rfl
@[simp] theorem State.setOff_pending (s : State) (t : StackId) (o : Half) :
    (s.setOff t o).pending = s.pending := by cases t <;> rfl
@[simp] theorem State.setOff_outReady (s : State) (t : StackId) (o : Half) :
    (s.setOff t o).outReady = s.outReady := by cases t <;> rfl
@[simp] theorem State.setOff_outq (s : State) (t : StackId) (o : Half) :
    (s.setOff t o).outq = s.outq := by cases t <;> rfl
@[simp] theorem State.setOff_outputTrace (s : State) (t : StackId) (o : Half) :
    (s.setOff t o).outputTrace = s.outputTrace := by cases t <;> rfl
@[simp] theorem State.setOff_run (s : State) (t : StackId) (o : Half) : (s.setOff t o).run = s.run := by
  cases t <;> rfl
@[simp] theorem State.setOff_stopped (s : State) (t : StackId) (o : Half) :
    (s.setOff t o).stopped = s.stopped := by
  cases t <;> rfl
@[simp] theorem State.setOff_mem (s : State) (t : StackId) (o : Half) : (s.setOff t o).mem = s.mem := by
  cases t <;> rfl
@[simp] theorem State.setOff_params (s : State) (t : StackId) (o : Half) :
    (s.setOff t o).params = s.params := by cases t <;> rfl
@[simp] theorem State.setOff_off (s : State) (t : StackId) (o : Half) :
    ((s.setOff t o).stack t).off = o := by cases t <;> rfl
@[simp] theorem State.setOff_base (s : State) (t u : StackId) (o : Half) :
    ((s.setOff t o).stack u).base = (s.stack u).base := by cases t <;> cases u <;> rfl
@[simp] theorem State.setOff_stack_other (s : State) (t : StackId) (o : Half) :
    (s.setOff t o).stack t.other = s.stack t.other := by cases t <;> rfl
@[simp] theorem State.setOff_setOff (s : State) (t : StackId) (o p : Half) :
    (s.setOff t o).setOff t p = s.setOff t p := by cases t <;> rfl
@[simp] theorem State.setOff_self (s : State) (t : StackId) : s.setOff t (s.stack t).off = s := by
  cases t <;> rfl
theorem State.setOff_comm (s : State) (t : StackId) (o p : Half) :
    (s.setOff t o).setOff t.other p = (s.setOff t.other p).setOff t o := by cases t <;> rfl
@[simp] theorem State.setOff_P_primary (s : State) (o : Half) :
    (s.setOff .P o).primary = ⟨s.primary.base, o⟩ := rfl
@[simp] theorem State.setOff_P_ret (s : State) (o : Half) : (s.setOff .P o).ret = s.ret := rfl
@[simp] theorem State.setOff_R_primary (s : State) (o : Half) : (s.setOff .R o).primary = s.primary := rfl
@[simp] theorem State.setOff_R_ret (s : State) (o : Half) : (s.setOff .R o).ret = ⟨s.ret.base, o⟩ := rfl

@[simp] theorem State.setBase_ip (s : State) (t : StackId) (b : Half) : (s.setBase t b).ip = s.ip := by
  cases t <;> rfl
@[simp] theorem State.setBase_cr (s : State) (t : StackId) (b : Half) : (s.setBase t b).cr = s.cr := by
  cases t <;> rfl
@[simp] theorem State.setBase_sic (s : State) (t : StackId) (b : Half) : (s.setBase t b).sic = s.sic := by
  cases t <;> rfl
@[simp] theorem State.setBase_pending (s : State) (t : StackId) (b : Half) :
    (s.setBase t b).pending = s.pending := by cases t <;> rfl
@[simp] theorem State.setBase_outReady (s : State) (t : StackId) (b : Half) :
    (s.setBase t b).outReady = s.outReady := by cases t <;> rfl
@[simp] theorem State.setBase_outq (s : State) (t : StackId) (b : Half) :
    (s.setBase t b).outq = s.outq := by cases t <;> rfl
@[simp] theorem State.setBase_outputTrace (s : State) (t : StackId) (b : Half) :
    (s.setBase t b).outputTrace = s.outputTrace := by cases t <;> rfl
@[simp] theorem State.setBase_run (s : State) (t : StackId) (b : Half) : (s.setBase t b).run = s.run := by
  cases t <;> rfl
@[simp] theorem State.setBase_stopped (s : State) (t : StackId) (b : Half) :
    (s.setBase t b).stopped = s.stopped := by
  cases t <;> rfl
@[simp] theorem State.setBase_mem (s : State) (t : StackId) (b : Half) : (s.setBase t b).mem = s.mem := by
  cases t <;> rfl
@[simp] theorem State.setBase_params (s : State) (t : StackId) (b : Half) :
    (s.setBase t b).params = s.params := by cases t <;> rfl
@[simp] theorem State.setBase_base (s : State) (t : StackId) (b : Half) :
    ((s.setBase t b).stack t).base = b := by cases t <;> rfl
@[simp] theorem State.setBase_off (s : State) (t u : StackId) (b : Half) :
    ((s.setBase t b).stack u).off = (s.stack u).off := by cases t <;> cases u <;> rfl
@[simp] theorem State.setBase_stack_other (s : State) (t : StackId) (b : Half) :
    (s.setBase t b).stack t.other = s.stack t.other := by cases t <;> rfl

/-! ## The memory -/

@[simp] theorem State.setMem_mem (s : State) (m : Memory) : (s.setMem m).mem = m := rfl
@[simp] theorem State.setMem_ip (s : State) (m : Memory) : (s.setMem m).ip = s.ip := rfl
@[simp] theorem State.setMem_cr (s : State) (m : Memory) : (s.setMem m).cr = s.cr := rfl
@[simp] theorem State.setMem_primary (s : State) (m : Memory) : (s.setMem m).primary = s.primary := rfl
@[simp] theorem State.setMem_ret (s : State) (m : Memory) : (s.setMem m).ret = s.ret := rfl
@[simp] theorem State.setMem_sic (s : State) (m : Memory) : (s.setMem m).sic = s.sic := rfl
@[simp] theorem State.setMem_pending (s : State) (m : Memory) : (s.setMem m).pending = s.pending := rfl
@[simp] theorem State.setMem_outReady (s : State) (m : Memory) : (s.setMem m).outReady = s.outReady := rfl
@[simp] theorem State.setMem_outq (s : State) (m : Memory) : (s.setMem m).outq = s.outq := rfl
@[simp] theorem State.setMem_outputTrace (s : State) (m : Memory) : (s.setMem m).outputTrace = s.outputTrace := rfl
@[simp] theorem State.setMem_run (s : State) (m : Memory) : (s.setMem m).run = s.run := rfl
@[simp] theorem State.setMem_stopped (s : State) (m : Memory) : (s.setMem m).stopped = s.stopped := rfl
@[simp] theorem State.setMem_params (s : State) (m : Memory) : (s.setMem m).params = s.params := rfl
@[simp] theorem State.setMem_stack (s : State) (m : Memory) (t : StackId) :
    (s.setMem m).stack t = s.stack t := by cases t <;> rfl
@[simp] theorem State.setMem_setMem (s : State) (m k : Memory) : (s.setMem m).setMem k = s.setMem k := rfl
@[simp] theorem State.setMem_self (s : State) : s.setMem s.mem = s := rfl
@[simp] theorem State.setOff_setMem (s : State) (m : Memory) (t : StackId) (o : Half) :
    (s.setMem m).setOff t o = (s.setOff t o).setMem m := by cases t <;> rfl
@[simp] theorem raiseFault_setMem (k : FaultKind) (s : State) (m : Memory) :
    raiseFault k (s.setMem m) = (raiseFault k s).setMem m := rfl
@[simp] theorem raiseFault_setOff (k : FaultKind) (s : State) (t : StackId) (o : Half) :
    raiseFault k (s.setOff t o) = (raiseFault k s).setOff t o := by cases t <;> rfl

/-! ## Base and depth -/

@[simp] theorem baseOf_setOff (s : State) (t u : StackId) (o : Half) :
    baseOf (s.setOff t o) u = baseOf s u := by cases t <;> cases u <;> rfl
@[simp] theorem baseOf_setMem (s : State) (m : Memory) (t : StackId) :
    baseOf (s.setMem m) t = baseOf s t := by cases t <;> rfl
@[simp] theorem top_setOff (s : State) (t : StackId) (o : Half) : top (s.setOff t o) t = o.toNat := by
  cases t <;> rfl
@[simp] theorem top_setOff_other (s : State) (t : StackId) (o : Half) :
    top (s.setOff t o) t.other = top s t.other := by cases t <;> rfl
@[simp] theorem top_setMem (s : State) (m : Memory) (t : StackId) : top (s.setMem m) t = top s t := by
  cases t <;> rfl
@[simp] theorem baseOf_raiseFault (k : FaultKind) (s : State) (t : StackId) :
    baseOf (raiseFault k s) t = baseOf s t := by cases t <;> rfl
@[simp] theorem top_raiseFault (k : FaultKind) (s : State) (t : StackId) :
    top (raiseFault k s) t = top s t := by cases t <;> rfl
theorem top_lt (s : State) (t : StackId) : top s t < 2 ^ 16 := (s.stack t).off.isLt
theorem baseOf_lt (s : State) (t : StackId) : baseOf s t < 2 ^ 16 := (s.stack t).base.isLt

/-! ## `gen_int` (R222) -/

@[simp] theorem genInt_ip (c : Word) (e : Bool) (s : State) : (genInt c e s).ip = s.ip := rfl
@[simp] theorem genInt_cr (c : Word) (e : Bool) (s : State) : (genInt c e s).cr = s.cr := rfl
@[simp] theorem genInt_primary (c : Word) (e : Bool) (s : State) : (genInt c e s).primary = s.primary := rfl
@[simp] theorem genInt_ret (c : Word) (e : Bool) (s : State) : (genInt c e s).ret = s.ret := rfl
@[simp] theorem genInt_stack (c : Word) (e : Bool) (s : State) (t : StackId) :
    (genInt c e s).stack t = s.stack t := by cases t <;> rfl
@[simp] theorem genInt_jv (c : Word) (e : Bool) (s : State) : (genInt c e s).sic.jv = s.sic.jv := rfl
@[simp] theorem genInt_ra (c : Word) (e : Bool) (s : State) : (genInt c e s).sic.ra = s.sic.ra := rfl
@[simp] theorem genInt_pending (c : Word) (e : Bool) (s : State) : (genInt c e s).pending = true := rfl
@[simp] theorem genInt_outReady (c : Word) (e : Bool) (s : State) :
    (genInt c e s).outReady = s.outReady := rfl
@[simp] theorem genInt_outq (c : Word) (e : Bool) (s : State) : (genInt c e s).outq = s.outq := rfl
@[simp] theorem genInt_outputTrace (c : Word) (e : Bool) (s : State) :
    (genInt c e s).outputTrace = s.outputTrace := rfl
@[simp] theorem genInt_run (c : Word) (e : Bool) (s : State) : (genInt c e s).run = s.run := rfl
@[simp] theorem genInt_stopped (c : Word) (e : Bool) (s : State) : (genInt c e s).stopped = s.stopped := rfl
@[simp] theorem genInt_mem (c : Word) (e : Bool) (s : State) : (genInt c e s).mem = s.mem := rfl
@[simp] theorem genInt_params (c : Word) (e : Bool) (s : State) : (genInt c e s).params = s.params := rfl

@[simp] theorem raiseFault_ip (k : FaultKind) (s : State) : (raiseFault k s).ip = s.ip := rfl
@[simp] theorem raiseFault_cr (k : FaultKind) (s : State) : (raiseFault k s).cr = s.cr := rfl
@[simp] theorem raiseFault_primary (k : FaultKind) (s : State) : (raiseFault k s).primary = s.primary := rfl
@[simp] theorem raiseFault_ret (k : FaultKind) (s : State) : (raiseFault k s).ret = s.ret := rfl
@[simp] theorem raiseFault_stack (k : FaultKind) (s : State) (t : StackId) :
    (raiseFault k s).stack t = s.stack t := by cases t <;> rfl
@[simp] theorem raiseFault_jv (k : FaultKind) (s : State) : (raiseFault k s).sic.jv = s.sic.jv := rfl
@[simp] theorem raiseFault_ra (k : FaultKind) (s : State) : (raiseFault k s).sic.ra = s.sic.ra := rfl
@[simp] theorem raiseFault_pending (k : FaultKind) (s : State) : (raiseFault k s).pending = true := rfl
@[simp] theorem raiseFault_outReady (k : FaultKind) (s : State) :
    (raiseFault k s).outReady = s.outReady := rfl
@[simp] theorem raiseFault_outq (k : FaultKind) (s : State) : (raiseFault k s).outq = s.outq := rfl
@[simp] theorem raiseFault_outputTrace (k : FaultKind) (s : State) :
    (raiseFault k s).outputTrace = s.outputTrace := rfl
@[simp] theorem raiseFault_run (k : FaultKind) (s : State) : (raiseFault k s).run = s.run := rfl
@[simp] theorem raiseFault_stopped (k : FaultKind) (s : State) : (raiseFault k s).stopped = s.stopped := rfl
@[simp] theorem raiseFault_mem (k : FaultKind) (s : State) : (raiseFault k s).mem = s.mem := rfl
@[simp] theorem raiseFault_params (k : FaultKind) (s : State) : (raiseFault k s).params = s.params := rfl

/-! ## Interrupt entry (R226) -/

@[simp] theorem takeInterrupt_ip (s : State) : (takeInterrupt s).ip = clearBit0 s.sic.jv := rfl
@[simp] theorem takeInterrupt_cr (s : State) : (takeInterrupt s).cr = s.cr := rfl
@[simp] theorem takeInterrupt_primary (s : State) : (takeInterrupt s).primary = s.primary := rfl
@[simp] theorem takeInterrupt_ret (s : State) : (takeInterrupt s).ret = s.ret := rfl
@[simp] theorem takeInterrupt_jv (s : State) : (takeInterrupt s).sic.jv = s.sic.jv := rfl
@[simp] theorem takeInterrupt_cause (s : State) : (takeInterrupt s).sic.cause = s.sic.cause := rfl
@[simp] theorem takeInterrupt_ra (s : State) : (takeInterrupt s).sic.ra = s.ip := rfl
@[simp] theorem takeInterrupt_pending (s : State) : (takeInterrupt s).pending = false := rfl
@[simp] theorem takeInterrupt_outReady (s : State) : (takeInterrupt s).outReady = s.outReady := rfl
@[simp] theorem takeInterrupt_outq (s : State) : (takeInterrupt s).outq = s.outq := rfl
@[simp] theorem takeInterrupt_outputTrace (s : State) :
    (takeInterrupt s).outputTrace = s.outputTrace := rfl
@[simp] theorem takeInterrupt_run (s : State) : (takeInterrupt s).run = s.run := rfl
@[simp] theorem takeInterrupt_stopped (s : State) : (takeInterrupt s).stopped = s.stopped := rfl
@[simp] theorem takeInterrupt_mem (s : State) : (takeInterrupt s).mem = s.mem := rfl
@[simp] theorem takeInterrupt_params (s : State) : (takeInterrupt s).params = s.params := rfl

/-! ## The stop (R232), the advance (R157), the output write (R240) -/

@[simp] theorem fatalStop_run (i : FatalInfo) (s : State) : (fatalStop i s).run = .fatal i := rfl
@[simp] theorem fatalStop_stopped (i : FatalInfo) (s : State) : (fatalStop i s).stopped = s.stopped := rfl
@[simp] theorem fatalStop_ip (i : FatalInfo) (s : State) : (fatalStop i s).ip = s.ip := rfl
@[simp] theorem fatalStop_cr (i : FatalInfo) (s : State) : (fatalStop i s).cr = s.cr := rfl
@[simp] theorem fatalStop_sic (i : FatalInfo) (s : State) : (fatalStop i s).sic = s.sic := rfl
@[simp] theorem fatalStop_pending (i : FatalInfo) (s : State) : (fatalStop i s).pending = s.pending := rfl
@[simp] theorem fatalStop_outReady (i : FatalInfo) (s : State) :
    (fatalStop i s).outReady = s.outReady := rfl
@[simp] theorem fatalStop_outq (i : FatalInfo) (s : State) : (fatalStop i s).outq = s.outq := rfl
@[simp] theorem fatalStop_outputTrace (i : FatalInfo) (s : State) :
    (fatalStop i s).outputTrace = s.outputTrace := rfl
@[simp] theorem fatalStop_mem (i : FatalInfo) (s : State) : (fatalStop i s).mem = s.mem := rfl
@[simp] theorem fatalStop_params (i : FatalInfo) (s : State) : (fatalStop i s).params = s.params := rfl
@[simp] theorem fatalStop_stack (i : FatalInfo) (s : State) (t : StackId) :
    (fatalStop i s).stack t = s.stack t := by cases t <;> rfl

@[simp] theorem advance_ip (i : Instr) (a : Word) (s : State) :
    (advance i a s).ip = a + BitVec.ofNat 32 i.length := rfl
@[simp] theorem advance_run (i : Instr) (a : Word) (s : State) : (advance i a s).run = s.run := rfl
@[simp] theorem advance_stopped (i : Instr) (a : Word) (s : State) :
    (advance i a s).stopped = s.stopped := rfl
@[simp] theorem advance_mem (i : Instr) (a : Word) (s : State) : (advance i a s).mem = s.mem := rfl
@[simp] theorem advance_params (i : Instr) (a : Word) (s : State) : (advance i a s).params = s.params := rfl
@[simp] theorem advance_cr (i : Instr) (a : Word) (s : State) : (advance i a s).cr = s.cr := rfl
@[simp] theorem advance_sic (i : Instr) (a : Word) (s : State) : (advance i a s).sic = s.sic := rfl
@[simp] theorem advance_pending (i : Instr) (a : Word) (s : State) :
    (advance i a s).pending = s.pending := rfl
@[simp] theorem advance_outq (i : Instr) (a : Word) (s : State) : (advance i a s).outq = s.outq := rfl
@[simp] theorem advance_outReady (i : Instr) (a : Word) (s : State) :
    (advance i a s).outReady = s.outReady := rfl
@[simp] theorem advance_outputTrace (i : Instr) (a : Word) (s : State) :
    (advance i a s).outputTrace = s.outputTrace := rfl
@[simp] theorem advance_stack (i : Instr) (a : Word) (s : State) (t : StackId) :
    (advance i a s).stack t = s.stack t := by cases t <;> rfl

@[simp] theorem outWrite_outq (b : Byte) (s : State) : (outWrite b s).outq = s.outq ++ [b] := rfl
@[simp] theorem outWrite_outReady (b : Byte) (s : State) : (outWrite b s).outReady = false := rfl
@[simp] theorem outWrite_outputTrace (b : Byte) (s : State) :
    (outWrite b s).outputTrace = s.outputTrace := rfl
@[simp] theorem outWrite_ip (b : Byte) (s : State) : (outWrite b s).ip = s.ip := rfl
@[simp] theorem outWrite_cr (b : Byte) (s : State) : (outWrite b s).cr = s.cr := rfl
@[simp] theorem outWrite_sic (b : Byte) (s : State) : (outWrite b s).sic = s.sic := rfl
@[simp] theorem outWrite_pending (b : Byte) (s : State) : (outWrite b s).pending = s.pending := rfl
@[simp] theorem outWrite_run (b : Byte) (s : State) : (outWrite b s).run = s.run := rfl
@[simp] theorem outWrite_stopped (b : Byte) (s : State) : (outWrite b s).stopped = s.stopped := rfl
@[simp] theorem outWrite_mem (b : Byte) (s : State) : (outWrite b s).mem = s.mem := rfl
@[simp] theorem outWrite_params (b : Byte) (s : State) : (outWrite b s).params = s.params := rfl
@[simp] theorem outWrite_stack (b : Byte) (s : State) (t : StackId) :
    (outWrite b s).stack t = s.stack t := by cases t <;> rfl

/-! ## The flow of an instruction -/

@[simp] theorem Flow.bind_cont {α β : Type} (a : α) (s : State) (f : α → State → Flow β) :
    (Flow.cont a s).bind f = f a s := rfl
@[simp] theorem Flow.bind_stop {α β : Type} (s : State) (f : α → State → Flow β) :
    (Flow.stop s : Flow α).bind f = .stop s := rfl
@[simp] theorem Flow.state_cont {α : Type} (a : α) (s : State) : (Flow.cont a s).state = s := rfl
@[simp] theorem Flow.state_stop {α : Type} (s : State) : (Flow.stop s : Flow α).state = s := rfl
@[simp] theorem Flow.outcome_cont {α : Type} (a : α) (s : State) :
    (Flow.cont a s).outcome = .next s := rfl
@[simp] theorem Flow.outcome_stop {α : Type} (s : State) : (Flow.stop s : Flow α).outcome = .next s := rfl

end Sys2Proof.Machine
end

