-- ==== Sys2Proof/Laws/Stack.lean ====
section
/-!
SUPPORT. What the guarded accessors and the stack engine can do, each said once: the four cases of a
slot access in any state, and one lemma for `push`, `popValue`, `pop` and `copy` on a stack whose slots
are readable.
-/

namespace Sys2Proof.Machine

/-! ## The guarded accessors (R54, R55) -/

theorem guardedRead_misaligned {i : Nat} {w : Width} (s : State) (h : i % w.bytes ≠ 0) :
    guardedRead i w s = (0, raiseFault .align s) := by
  unfold guardedRead; rw [if_pos h]

theorem guardedRead_outside {i : Nat} {w : Width} (s : State) (h : i % w.bytes = 0)
    (hi : s.params.memSize < i + w.bytes) : guardedRead i w s = (0, raiseFault .bounds s) := by
  unfold guardedRead; rw [if_neg (by simpa using h), if_pos hi]

theorem guardedRead_inside {i : Nat} {w : Width} (s : State) (h : i % w.bytes = 0)
    (hi : i + w.bytes ≤ s.params.memSize) :
    guardedRead i w s = (BitVec.ofNat 32 (memRead s.mem i w.bytes), s) := by
  unfold guardedRead; rw [if_neg (by simpa using h), if_neg (by omega)]

theorem guardedWrite_misaligned {i : Nat} {w : Width} (v : Word) (s : State) (h : i % w.bytes ≠ 0) :
    guardedWrite i w v s = raiseFault .align s := by
  unfold guardedWrite; rw [if_pos h]

theorem guardedWrite_outside {i : Nat} {w : Width} (v : Word) (s : State) (h : i % w.bytes = 0)
    (hi : s.params.memSize < i + w.bytes) : guardedWrite i w v s = raiseFault .bounds s := by
  unfold guardedWrite; rw [if_neg (by simpa using h), if_pos hi]

theorem guardedWrite_inside {i : Nat} {w : Width} (v : Word) (s : State) (h : i % w.bytes = 0)
    (hi : i + w.bytes ≤ s.params.memSize) :
    guardedWrite i w v s = s.setMem (memWrite s.mem i w.bytes v.toNat) := by
  unfold guardedWrite; rw [if_neg (by simpa using h), if_neg (by omega)]

/-- Everything a guarded read can do (R54): the bytes, or 0 with a fault. -/
theorem guardedRead_cases (i : Nat) (w : Width) (s : State) :
    guardedRead i w s = (BitVec.ofNat 32 (memRead s.mem i w.bytes), s) ∨
      guardedRead i w s = (0, raiseFault .align s) ∨
      guardedRead i w s = (0, raiseFault .bounds s) := by
  by_cases h : i % w.bytes = 0
  · by_cases hi : i + w.bytes ≤ s.params.memSize
    · exact .inl (guardedRead_inside s h hi)
    · exact .inr (.inr (guardedRead_outside s h (by omega)))
  · exact .inr (.inl (guardedRead_misaligned s h))

/-- Everything a guarded write can do (R55): the bytes inside the memory, or dropped with a fault. -/
theorem guardedWrite_cases (i : Nat) (w : Width) (v : Word) (s : State) :
    (i + w.bytes ≤ s.params.memSize ∧
        guardedWrite i w v s = s.setMem (memWrite s.mem i w.bytes v.toNat)) ∨
      guardedWrite i w v s = raiseFault .align s ∨ guardedWrite i w v s = raiseFault .bounds s := by
  by_cases h : i % w.bytes = 0
  · by_cases hi : i + w.bytes ≤ s.params.memSize
    · exact .inl ⟨hi, guardedWrite_inside v s h hi⟩
    · exact .inr (.inr (guardedWrite_outside v s h (by omega)))
  · exact .inr (.inl (guardedWrite_misaligned v s h))

/-! ## One slot (R130, R131, R133) -/

theorem off_ofNat (n : Nat) (h : n ≤ 0xFFFF) : (BitVec.ofNat 16 n).toNat = n := by
  simp only [BitVec.toNat_ofNat]; omega

theorem half_add_two (o : Half) : o + 2 = BitVec.ofNat 16 (o.toNat + 2) := by
  apply BitVec.eq_of_toNat_eq; simp

theorem half_sub_two (o : Half) (h : 2 ≤ o.toNat) : o - 2 = BitVec.ofNat 16 (o.toNat - 2) := by
  apply BitVec.eq_of_toNat_eq
  have := o.isLt
  rw [off_ofNat _ (by omega), BitVec.toNat_sub, show (2 : Half).toNat = 2 from rfl]
  omega

theorem push16_full (t : StackId) (h : Half) (s : State) (ho : stackBytes ≤ top s t) :
    push16 t h s = .stop (fatalStop (.stackOverflow t s.ip) s) := by
  unfold push16; exact if_pos ho

theorem push16_room (t : StackId) (h : Half) (s : State) (ho : top s t < stackBytes) :
    push16 t h s =
      .cont () ((slotWrite t (s.stack t).off h s).setOff t (BitVec.ofNat 16 (top s t + 2))) := by
  unfold push16
  rw [if_neg (by unfold top at ho; omega)]
  simp only [half_add_two]
  rfl

theorem pop16_empty (t : StackId) (s : State) (ho : top s t < 2) : pop16 t s = (0, s.setOff t 0) := by
  unfold pop16; exact if_pos ho

theorem slotWrite_placed (t : StackId) (o h : Half) (s : State)
    (he : (baseOf s t + o.toNat) % 2 = 0) (hi : baseOf s t + o.toNat + 2 ≤ s.params.memSize) :
    slotWrite t o h s = s.setMem (memWrite s.mem (baseOf s t + o.toNat) 2 h.toNat) := by
  have hh : (h.setWidth 32).toNat = h.toNat := by
    have := h.isLt
    rw [BitVec.toNat_setWidth]; omega
  unfold slotWrite
  rw [guardedWrite_inside _ _ he hi, hh]
  rfl

theorem slotRead_placed (t : StackId) (o : Half) (s : State)
    (he : (baseOf s t + o.toNat) % 2 = 0) (hi : baseOf s t + o.toNat + 2 ≤ s.params.memSize) :
    slotRead t o s = (BitVec.ofNat 16 (memRead s.mem (baseOf s t + o.toNat) 2), s) := by
  have hr : guardedRead ((s.stack t).base.toNat + o.toNat) .narrow s =
    (BitVec.ofNat 32 (memRead s.mem (baseOf s t + o.toNat) 2), s) := guardedRead_inside _ he hi
  unfold slotRead
  simp only [hr]
  congr 1
  apply BitVec.eq_of_toNat_eq
  simp only [BitVec.toNat_setWidth, BitVec.toNat_ofNat]
  omega

/-- A slot pushed at an even index inside the memory (R131). -/
theorem push16_placed (t : StackId) (h : Half) (s : State) (ho : top s t < stackBytes)
    (he : (baseOf s t + top s t) % 2 = 0) (hi : baseOf s t + top s t + 2 ≤ s.params.memSize) :
    push16 t h s = .cont () ((s.setOff t (BitVec.ofNat 16 (top s t + 2))).setMem
      (memWrite s.mem (baseOf s t + top s t) 2 h.toNat)) := by
  rw [push16_room t h s ho, slotWrite_placed t _ h s he hi, State.setOff_setMem]
  rfl

/-- A slot popped from an even index inside the memory (R133). -/
theorem pop16_placed (t : StackId) (s : State) (ho : 2 ≤ top s t)
    (he : (baseOf s t + (top s t - 2)) % 2 = 0)
    (hi : baseOf s t + (top s t - 2) + 2 ≤ s.params.memSize) :
    pop16 t s = (BitVec.ofNat 16 (memRead s.mem (baseOf s t + (top s t - 2)) 2),
      (s.setOff t (BitVec.ofNat 16 (top s t - 2))).setMem
        (memWrite s.mem (baseOf s t + (top s t - 2)) 2 0)) := by
  have hlt := top_lt s t
  have hv : (BitVec.ofNat 16 (top s t - 2)).toNat = top s t - 2 := off_ofNat _ (by omega)
  have hs : (s.stack t).off - 2 = BitVec.ofNat 16 (top s t - 2) := half_sub_two _ ho
  unfold pop16
  rw [if_neg (by unfold top at ho; omega)]
  simp only [hs]
  rw [slotRead_placed t _ _ (by simpa [hv] using he) (by simpa [hv] using hi)]
  simp only []
  rw [slotWrite_placed t _ _ _ (by simpa [hv] using he) (by simpa [hv] using hi)]
  simp [hv]

/-! ## Reading a value in place: `copy` (R137) -/

theorem copyHalf_eq (s : State) (t : StackId) (i : Nat) :
    copyHalf s t i =
      if i < 2 then 0
      else if baseOf s t + (i - 2) + 2 ≤ s.params.memSize then
        BitVec.ofNat 16 (memRead s.mem (baseOf s t + (i - 2)) 2)
      else 0 := rfl

theorem copyHalf_congr {s u : State} {t : StackId} {i : Nat}
    (hb : baseOf u t = baseOf s t) (hp : u.params = s.params)
    (h : ∀ a, InSlots s t (i - 2) i a → u.mem.read a = s.mem.read a) :
    copyHalf u t i = copyHalf s t i := by
  rw [copyHalf_eq, copyHalf_eq, hb, hp]
  split
  · rfl
  · split
    · rw [memRead_congr 2 u.mem s.mem _ fun a h1 h2 => h a (by unfold InSlots; omega)]
    · rfl

/-- `copy` depends on the stack's base, the memory size and the bytes it covers only. -/
theorem copy_congr {s u : State} {t : StackId} {i : Nat} {w : Width}
    (hb : baseOf u t = baseOf s t) (hp : u.params = s.params)
    (h : ∀ a, InSlots s t (i - w.bytes) i a → u.mem.read a = s.mem.read a) :
    copy u t i w = copy s t i w := by
  cases w with
  | narrow =>
    show (copyHalf u t i).setWidth 32 = (copyHalf s t i).setWidth 32
    rw [copyHalf_congr hb hp h]
  | wide =>
    show copyHalf u t i ++ copyHalf u t (i - 2) = copyHalf s t i ++ copyHalf s t (i - 2)
    simp only [Width.bytes] at h
    rw [copyHalf_congr hb hp fun a ha => h a (by unfold InSlots at *; omega),
      copyHalf_congr hb hp fun a ha => h a (by unfold InSlots at *; omega)]

theorem copyHalf_of_bytes {s : State} {t : StackId} {i : Nat} {v : Nat} (h2 : 2 ≤ i)
    (hi : baseOf s t + i ≤ s.params.memSize)
    (h : ∀ j, j < 2 → s.mem.read (baseOf s t + (i - 2) + j) = BitVec.ofNat 8 (v / 2 ^ (8 * j))) :
    copyHalf s t i = BitVec.ofNat 16 v := by
  rw [copyHalf_eq, if_neg (by omega), if_pos (by omega), memRead_eq 2 _ _ v h]
  apply BitVec.eq_of_toNat_eq
  simp

theorem toNat_append_half (a b : Half) : (a ++ b : Word).toNat = 2 ^ 16 * a.toNat + b.toNat := by
  rw [BitVec.toNat_append, ← Nat.shiftLeft_add_eq_or_of_lt b.isLt, Nat.shiftLeft_eq]
  omega

/-- `copy` of bytes that hold `v`, little-endian, is `v` at the width. -/
theorem copy_of_bytes {s : State} {t : StackId} {i : Nat} {w : Width} {v : Word}
    (hw : w.bytes ≤ i) (hi : baseOf s t + i ≤ s.params.memSize)
    (h : ∀ j, j < w.bytes → s.mem.read (baseOf s t + (i - w.bytes) + j) = byteOf v j) :
    copy s t i w = w.low v := by
  cases w with
  | narrow =>
    show (copyHalf s t i).setWidth 32 = (v.setWidth 16).setWidth 32
    rw [copyHalf_of_bytes (v := v.toNat) hw hi h]
    congr 1
  | wide =>
    simp only [Width.bytes] at hw h
    show copyHalf s t i ++ copyHalf s t (i - 2) = v
    rw [copyHalf_of_bytes (v := v.toNat / 2 ^ 16) (by omega) hi fun j hj => by
        rw [Nat.div_div_eq_div_mul, ← pow_add, show 16 + 8 * j = 8 * (j + 2) by omega,
          show baseOf s t + (i - 2) + j = baseOf s t + (i - 4) + (j + 2) by omega]
        exact h (j + 2) (by omega),
      copyHalf_of_bytes (v := v.toNat) (i := i - 2) (by omega) (by omega) fun j hj => by
        rw [show i - 2 - 2 = i - 4 by omega]
        exact h j (by omega)]
    apply BitVec.eq_of_toNat_eq
    have := v.isLt
    rw [toNat_append_half]
    simp only [BitVec.toNat_ofNat]
    omega

theorem toNat_copyHalf {s : State} {t : StackId} {k : Nat} (h2 : 2 ≤ k)
    (hk : baseOf s t + k ≤ s.params.memSize) :
    (copyHalf s t k).toNat = (s.mem.read (baseOf s t + (k - 2))).toNat +
      2 ^ 8 * (s.mem.read (baseOf s t + (k - 2) + 1)).toNat := by
  have h0 := (s.mem.read (baseOf s t + (k - 2))).isLt
  have h1 := (s.mem.read (baseOf s t + (k - 2) + 1)).isLt
  rw [copyHalf_eq, if_neg (by omega), if_pos (by omega), BitVec.toNat_ofNat]
  simp only [memRead]
  omega

/-- The bytes `copy` covers, read back from its value. -/
theorem read_of_copy {s : State} {t : StackId} {i : Nat} {w : Width} {j : Nat}
    (hw : w.bytes ≤ i) (hi : baseOf s t + i ≤ s.params.memSize) (hj : j < w.bytes) :
    s.mem.read (baseOf s t + (i - w.bytes) + j) = byteOf (copy s t i w) j := by
  apply BitVec.eq_of_toNat_eq
  cases w with
  | narrow =>
    simp only [Width.bytes] at hw hj ⊢
    have hk := toNat_copyHalf hw hi
    have h0 := (s.mem.read (baseOf s t + (i - 2))).isLt
    have h1 := (s.mem.read (baseOf s t + (i - 2) + 1)).isLt
    have hc : (copy s t i .narrow).toNat = (copyHalf s t i).toNat := by
      show ((copyHalf s t i).setWidth 32).toNat = _
      have := (copyHalf s t i).isLt
      rw [BitVec.toNat_setWidth]; omega
    simp only [byteOf, hc, hk, BitVec.toNat_ofNat]
    interval_cases j
    · simp only [Nat.mul_zero, Nat.pow_zero, Nat.div_one, Nat.add_zero]; omega
    · simp only [Nat.mul_one]; omega
  | wide =>
    simp only [Width.bytes] at hw hj ⊢
    have hk := toNat_copyHalf (s := s) (t := t) (k := i) (by omega) hi
    have hl := toNat_copyHalf (s := s) (t := t) (k := i - 2) (by omega) (by omega)
    rw [show i - 2 - 2 = i - 4 by omega] at hl
    have a0 := (s.mem.read (baseOf s t + (i - 4))).isLt
    have a1 := (s.mem.read (baseOf s t + (i - 4) + 1)).isLt
    have a2 := (s.mem.read (baseOf s t + (i - 2))).isLt
    have a3 := (s.mem.read (baseOf s t + (i - 2) + 1)).isLt
    have hc : (copy s t i .wide).toNat =
        2 ^ 16 * (copyHalf s t i).toNat + (copyHalf s t (i - 2)).toNat := toNat_append_half _ _
    simp only [byteOf, hc, hk, hl, BitVec.toNat_ofNat]
    interval_cases j
    · simp only [Nat.mul_zero, Nat.pow_zero, Nat.div_one, Nat.add_zero]; omega
    · simp only [Nat.mul_one]; omega
    · rw [show baseOf s t + (i - 4) + 2 = baseOf s t + (i - 2) by omega]; omega
    · rw [show baseOf s t + (i - 4) + 3 = baseOf s t + (i - 2) + 1 by omega]; omega

/-! ## `push`, `popValue`, `pop` on a readable stack (R134 to R136) -/

/-- A stack that can take pushes up to offset 256 without a slot fault. -/
abbrev StackPlaced (t : StackId) (s : State) : Prop :=
  baseOf s t % 2 = 0 ∧ top s t % 2 = 0 ∧ baseOf s t + stackBytes ≤ s.params.memSize

theorem Width.bytes_cases (w : Width) : w.bytes = 2 ∨ w.bytes = 4 := by
  cases w <;> simp [Width.bytes]

/-- What a pop of one slot does on a readable stack: the vacated slot is zeroed (R133). -/
theorem pop16_sound (t : StackId) (s : State) (hm : s.mem.wf) (h : StackSound t s) :
    ∃ m, pop16 t s = (copyHalf s t (top s t),
        (s.setOff t (BitVec.ofNat 16 (top s t - 2))).setMem m) ∧ Memory.wf m ∧
      ∀ a, m.read a = if InSlots s t (top s t - 2) (top s t) a then 0 else s.mem.read a := by
  obtain ⟨hb, ho, hle, hin⟩ := h
  unfold stackBytes at hle hin
  by_cases h2 : top s t < 2
  · have h0 : top s t = 0 := by omega
    refine ⟨s.mem, ?_, hm, fun a => ?_⟩
    · rw [pop16_empty t s h2, h0]
      have : copyHalf s t 0 = 0 := rfl
      rw [this, ← State.setOff_mem s t 0, show BitVec.ofNat 16 (0 - 2) = (0 : Half) from rfl,
        State.setMem_self]
    · rw [if_neg (by unfold InSlots; omega)]
  · refine ⟨_, ?_, memWrite_wf 2 s.mem (baseOf s t + (top s t - 2)) 0 hm, fun a => ?_⟩
    · rw [pop16_placed t s (by omega) (by omega) (by omega)]
      rw [copyHalf_eq, if_neg h2, if_pos (by omega)]
    · rw [read_memWrite 2 _ _ _ _ hm]
      unfold InSlots
      congr 1
      · simp only [eq_iff_iff]; omega
      · simp

/-- The value popped from a readable stack is the one `copy` shows, 0 in the halves that underflow; the
vacated slots are zeroed; nothing else changes (R133, R135). -/
theorem popValue_sound (t : StackId) (w : Width) (s : State) (hm : s.mem.wf) (h : StackSound t s) :
    ∃ m, popValue t w s = (copy s t (top s t) w,
        (s.setOff t (BitVec.ofNat 16 (top s t - w.bytes))).setMem m) ∧ Memory.wf m ∧
      ∀ a, m.read a = if InSlots s t (top s t - w.bytes) (top s t) a then 0 else s.mem.read a := by
  obtain ⟨m, h1, h2, h3⟩ := pop16_sound t s hm h
  cases w with
  | narrow => exact ⟨m, by unfold popValue; rw [h1]; rfl, h2, h3⟩
  | wide =>
    obtain ⟨hb, ho, hle, hin⟩ := h
    unfold stackBytes at hle hin
    have e : (BitVec.ofNat 16 (top s t - 2)).toNat = top s t - 2 := off_ofNat _ (by omega)
    obtain ⟨k, k1, k2, k3⟩ := pop16_sound t ((s.setOff t (BitVec.ofNat 16 (top s t - 2))).setMem m) h2
      ⟨by simpa using hb, by simp only [top_setMem, top_setOff, e]; omega, by
        simp only [top_setMem, top_setOff, e]; unfold stackBytes; omega, by
        unfold stackBytes; simpa using hin⟩
    simp only [top_setMem, top_setOff, e, State.setMem_mem, State.setOff_setMem, State.setOff_setOff,
      State.setMem_setMem, InSlots, baseOf_setMem, baseOf_setOff] at k1 k3
    refine ⟨k, ?_, k2, fun a => ?_⟩
    · have hc : copyHalf ((s.setOff t (BitVec.ofNat 16 (top s t - 2))).setMem m) t (top s t - 2) =
          copyHalf s t (top s t - 2) := by
        refine copyHalf_congr (by simp) (by simp) fun a ha => ?_
        rw [State.setMem_mem, h3, if_neg (by unfold InSlots at *; omega)]
      have e4 : top s t - 2 - 2 = top s t - 4 := by omega
      rw [hc, e4] at k1
      unfold popValue
      simp only [h1, k1, Width.bytes]
      rfl
    · have h4 : Width.wide.bytes = 4 := rfl
      rw [k3, h3]
      by_cases c1 : baseOf s t + (top s t - 2 - 2) ≤ a ∧ a < baseOf s t + (top s t - 2)
      · rw [if_pos c1, if_pos (by unfold InSlots; omega)]
      · rw [if_neg c1]
        by_cases c2 : InSlots s t (top s t - 2) (top s t) a
        · rw [if_pos c2, if_pos (by unfold InSlots at *; omega)]
        · rw [if_neg c2, if_neg (by unfold InSlots at *; omega)]

/-- What a push onto a placed stack with room does: the value's bytes in the next slots, the offset
advanced, nothing else (R131, R134). -/
theorem push_placed (t : StackId) (w : Width) (v : Word) (s : State) (hm : s.mem.wf)
    (h : StackPlaced t s) (hr : top s t + w.bytes ≤ stackBytes) :
    ∃ m, push t w v s = .cont () ((s.setOff t (BitVec.ofNat 16 (top s t + w.bytes))).setMem m) ∧
      Memory.wf m ∧
      (∀ j, j < w.bytes → m.read (baseOf s t + top s t + j) = byteOf v j) ∧
      ∀ a, ¬ InSlots s t (top s t) (top s t + w.bytes) a → m.read a = s.mem.read a := by
  obtain ⟨hb, ho, hin⟩ := h
  unfold stackBytes at hin hr
  have hw := Width.bytes_cases w
  have hlow : (v.extractLsb' 0 16 : Half).toNat = v.toNat % 2 ^ 16 := by simp
  have hhigh : (v.extractLsb' 16 16 : Half).toNat = v.toNat / 2 ^ 16 % 2 ^ 16 := by
    simp [Nat.shiftRight_eq_div_pow]
  have hv := v.isLt
  have hpush := fun h : Half => push16_placed t h s (by unfold stackBytes; omega) (by omega) (by omega)
  cases w with
  | narrow =>
    simp only [Width.bytes] at hr ⊢
    refine ⟨_, hpush _, memWrite_wf _ _ _ _ hm, fun j hj => ?_, fun a ha => ?_⟩
    · rw [read_memWrite 2 _ _ _ _ hm, if_pos (by omega), Nat.add_sub_cancel_left, hlow]
      apply BitVec.eq_of_toNat_eq
      simp only [byteOf, BitVec.toNat_ofNat]
      interval_cases j
      · simp only [Nat.mul_zero, Nat.pow_zero, Nat.div_one]; omega
      · simp only [Nat.mul_one]; omega
    · rw [read_memWrite 2 _ _ _ _ hm, if_neg (by unfold InSlots at ha; omega)]
  | wide =>
    simp only [Width.bytes] at hr ⊢
    have hm1 := memWrite_wf 2 s.mem (baseOf s t + top s t) (v.extractLsb' 0 16 : Half).toNat hm
    have e : (BitVec.ofNat 16 (top s t + 2)).toNat = top s t + 2 := off_ofNat _ (by omega)
    have hsnd := push16_placed t (v.extractLsb' 16 16)
      ((s.setOff t (BitVec.ofNat 16 (top s t + 2))).setMem
        (memWrite s.mem (baseOf s t + top s t) 2 (v.extractLsb' 0 16 : Half).toNat))
    simp only [top_setMem, top_setOff, e, State.setMem_mem, State.setOff_setMem, State.setOff_setOff,
      State.setMem_setMem, baseOf_setMem, baseOf_setOff, State.setMem_params,
      State.setOff_params] at hsnd
    have hsnd := hsnd (by unfold stackBytes; omega) (by omega) (by omega)
    refine ⟨_, ?_, memWrite_wf 2 _ (baseOf s t + (top s t + 2)) (v.extractLsb' 16 16 : Half).toNat hm1,
      fun j hj => ?_, fun a ha => ?_⟩
    · unfold push
      simp only []
      rw [hpush, Flow.bind_cont, hsnd]
    · rw [read_memWrite 2 _ _ _ _ hm1, read_memWrite 2 _ _ _ _ hm, hlow, hhigh]
      apply BitVec.eq_of_toNat_eq
      by_cases h2 : j < 2
      · rw [if_neg (by omega), if_pos (by omega), Nat.add_sub_cancel_left]
        simp only [byteOf, BitVec.toNat_ofNat]
        interval_cases j
        · simp only [Nat.mul_zero, Nat.pow_zero, Nat.div_one]; omega
        · simp only [Nat.mul_one]; omega
      · rw [if_pos (by omega),
          show baseOf s t + top s t + j - (baseOf s t + (top s t + 2)) = j - 2 by omega]
        simp only [byteOf, BitVec.toNat_ofNat]
        interval_cases j
        · simp only [Nat.sub_self, Nat.mul_zero, Nat.pow_zero, Nat.div_one]; omega
        · simp only [show 3 - 2 = 1 from rfl, Nat.mul_one]; omega
    · rw [read_memWrite 2 _ _ _ _ hm1, if_neg (by unfold InSlots at ha; omega),
        read_memWrite 2 _ _ _ _ hm, if_neg (by unfold InSlots at ha; omega)]

/-- Without `keep` a pop cannot stop (R133: underflow and slot faults are recoverable). -/
theorem pop_discard (t : StackId) (w : Width) (s : State) :
    pop t w false s = .cont (popValue t w s).1 (popValue t w s).2 := rfl

/-- A pop without `keep` from a readable stack. -/
theorem pop_discard_sound (t : StackId) (w : Width) (s : State) (hm : s.mem.wf)
    (h : StackSound t s) :
    ∃ m, pop t w false s = .cont (copy s t (top s t) w)
        ((s.setOff t (BitVec.ofNat 16 (top s t - w.bytes))).setMem m) ∧ Memory.wf m ∧
      ∀ a, m.read a = if InSlots s t (top s t - w.bytes) (top s t) a then 0 else s.mem.read a := by
  obtain ⟨m, h1, h2⟩ := popValue_sound t w s hm h
  exact ⟨m, by rw [pop_discard, h1], h2⟩

/-- A keep pop from a readable stack: the value stays in the slots it was read from, and where the stack
held too few bytes the slots pushed back grow it (R136). -/
theorem pop_keep_sound (t : StackId) (w : Width) (s : State) (hm : s.mem.wf) (h : StackSound t s) :
    ∃ m, pop t w true s = .cont (copy s t (top s t) w)
        ((s.setOff t (BitVec.ofNat 16 (top s t - w.bytes + w.bytes))).setMem m) ∧
      Memory.wf m ∧
      (∀ j, j < w.bytes →
        m.read (baseOf s t + (top s t - w.bytes) + j) = byteOf (copy s t (top s t) w) j) ∧
      ∀ a, ¬ InSlots s t (top s t - w.bytes) (top s t - w.bytes + w.bytes) a →
        m.read a = s.mem.read a := by
  obtain ⟨m, h1, h2, h3⟩ := popValue_sound t w s hm h
  obtain ⟨hb, ho, hle, hin⟩ := h
  unfold stackBytes at hle hin
  have hw := Width.bytes_cases w
  have e : (BitVec.ofNat 16 (top s t - w.bytes)).toNat = top s t - w.bytes := off_ofNat _ (by omega)
  obtain ⟨k, k1, k2, k3, k4⟩ := push_placed t w (copy s t (top s t) w)
    ((s.setOff t (BitVec.ofNat 16 (top s t - w.bytes))).setMem m) h2
    ⟨by simpa using hb, by simp only [top_setMem, top_setOff, e]; omega, by
      unfold stackBytes; simpa using hin⟩
    (by simp only [top_setMem, top_setOff, e]; unfold stackBytes; omega)
  simp only [top_setMem, top_setOff, e, State.setMem_mem, State.setOff_setMem, State.setOff_setOff,
      State.setMem_setMem, InSlots, baseOf_setMem, baseOf_setOff] at k1 k3 k4
  refine ⟨k, ?_, k2, k3, fun a ha => ?_⟩
  · unfold pop
    simp only [h1, k1, if_true, Flow.bind_cont]
  · rw [k4 a ha, h3, if_neg (by unfold InSlots at *; omega)]

end Sys2Proof.Machine
end

