-- ==== Sys2Proof/Laws/Frame.lean ====
section
/-!
SUPPORT. What the shared operations leave unchanged: `EngineFrame` holds of every operation of the stack
engine and of every read through the MMU; `WriteFrame` of every write through it.
-/

namespace Sys2Proof.Machine

/-- The memory part of the invariant. -/
abbrev MemOk (s : State) : Prop := s.mem.wf ∧ s.mem.within s.params.memSize

/-- What the stack engine and the MMU's reads leave: they move offsets, write slots and raise faults. -/
structure EngineFrame (s u : State) : Prop where
  ip : u.ip = s.ip
  cr : u.cr = s.cr
  base : ∀ t, (u.stack t).base = (s.stack t).base
  jv : u.sic.jv = s.sic.jv
  ra : u.sic.ra = s.sic.ra
  pending : s.pending = true → u.pending = true
  outReady : u.outReady = s.outReady
  outq : u.outq = s.outq
  outputTrace : u.outputTrace = s.outputTrace
  stopped : u.stopped = s.stopped
  params : u.params = s.params
  memOk : MemOk s → MemOk u

theorem EngineFrame.refl (s : State) : EngineFrame s s :=
  ⟨rfl, rfl, fun _ => rfl, rfl, rfl, id, rfl, rfl, rfl, rfl, rfl, id⟩

theorem EngineFrame.trans {s u v : State} (h : EngineFrame s u) (k : EngineFrame u v) :
    EngineFrame s v :=
  ⟨k.ip.trans h.ip, k.cr.trans h.cr, fun t => (k.base t).trans (h.base t), k.jv.trans h.jv,
    k.ra.trans h.ra, fun p => k.pending (h.pending p), k.outReady.trans h.outReady,
    k.outq.trans h.outq, k.outputTrace.trans h.outputTrace, k.stopped.trans h.stopped,
    k.params.trans h.params,
    fun m => k.memOk (h.memOk m)⟩

theorem raiseFault_frame (k : FaultKind) (s : State) : EngineFrame s (raiseFault k s) :=
  ⟨rfl, rfl, fun t => by simp, rfl, rfl, fun _ => rfl, rfl, rfl, rfl, rfl, rfl, id⟩

theorem fatalStop_frame (i : FatalInfo) (s : State) : EngineFrame s (fatalStop i s) :=
  ⟨rfl, rfl, fun t => by simp, rfl, rfl, id, rfl, rfl, rfl, rfl, rfl, id⟩

theorem setOff_frame (t : StackId) (o : Half) (s : State) : EngineFrame s (s.setOff t o) :=
  ⟨by simp, by simp, fun t => by simp, by simp, by simp, by simp, by simp, by simp, by simp, by simp,
    by simp, by simp [MemOk]⟩

theorem guardedRead_frame (i : Nat) (w : Width) (s : State) :
    EngineFrame s (guardedRead i w s).2 ∧ (guardedRead i w s).2.run = s.run := by
  rcases guardedRead_cases i w s with h | h | h <;> rw [h]
  · exact ⟨.refl s, rfl⟩
  · exact ⟨raiseFault_frame _ s, rfl⟩
  · exact ⟨raiseFault_frame _ s, rfl⟩

theorem guardedWrite_frame (i : Nat) (w : Width) (v : Word) (s : State) :
    EngineFrame s (guardedWrite i w v s) ∧ (guardedWrite i w v s).run = s.run := by
  rcases guardedWrite_cases i w v s with ⟨hi, h⟩ | h | h <;> rw [h]
  · exact ⟨⟨rfl, rfl, fun t => by simp, rfl, rfl, id, rfl, rfl, rfl, rfl, rfl, fun m =>
      ⟨memWrite_wf _ _ _ _ m.1, memWrite_within _ _ _ _ _ m.2 hi⟩⟩, rfl⟩
  · exact ⟨raiseFault_frame _ s, rfl⟩
  · exact ⟨raiseFault_frame _ s, rfl⟩

theorem pop16_frame (t : StackId) (s : State) :
    EngineFrame s (pop16 t s).2 ∧ (pop16 t s).2.run = s.run := by
  unfold pop16
  split
  · exact ⟨setOff_frame t 0 s, by simp⟩
  · have h1 := setOff_frame t ((s.stack t).off - 2) s
    have h2 := guardedRead_frame
      (((s.setOff t ((s.stack t).off - 2)).stack t).base.toNat + ((s.stack t).off - 2).toNat) .narrow
      (s.setOff t ((s.stack t).off - 2))
    have h3 := guardedWrite_frame
      (((slotRead t ((s.stack t).off - 2) (s.setOff t ((s.stack t).off - 2))).2.stack t).base.toNat +
        ((s.stack t).off - 2).toNat) .narrow ((0 : Half).setWidth 32)
      (slotRead t ((s.stack t).off - 2) (s.setOff t ((s.stack t).off - 2))).2
    exact ⟨(h1.trans h2.1).trans h3.1, h3.2.trans (h2.2.trans (by simp))⟩

theorem popValue_frame (t : StackId) (w : Width) (s : State) :
    EngineFrame s (popValue t w s).2 ∧ (popValue t w s).2.run = s.run := by
  cases w with
  | narrow => exact pop16_frame t s
  | wide =>
    have h1 := pop16_frame t s
    have h2 := pop16_frame t (pop16 t s).2
    exact ⟨h1.1.trans h2.1, h2.2.trans h1.2⟩

/-- What a piece of pseudocode that the stack engine runs can do to the run state: go on, or stop with
StackOverflow at the instruction's address (R131, R232). -/
def FlowFrame {α : Type} (s : State) (x : Flow α) : Prop :=
  (∃ a u, x = .cont a u ∧ EngineFrame s u ∧ u.run = s.run) ∨
    ∃ t u, x = .stop u ∧ EngineFrame s u ∧ u.run = .fatal (.stackOverflow t s.ip)

theorem FlowFrame.bind {α β : Type} {s : State} {x : Flow α} {f : α → State → Flow β}
    (hx : FlowFrame s x) (hf : ∀ a u, FlowFrame u (f a u)) : FlowFrame s (x.bind f) := by
  rcases hx with ⟨a, u, rfl, hu, hr⟩ | ⟨t, u, rfl, hu, hr⟩
  · rcases hf a u with ⟨b, v, hb, hv, hr'⟩ | ⟨t, v, hb, hv, hr'⟩
    · exact .inl ⟨b, v, hb, hu.trans hv, hr'.trans hr⟩
    · exact .inr ⟨t, v, hb, hu.trans hv, by rw [hr', hu.ip]⟩
  · exact .inr ⟨t, u, rfl, hu, hr⟩

theorem FlowFrame.cont {α : Type} (s : State) (a : α) : FlowFrame s (.cont a s) :=
  .inl ⟨a, s, rfl, .refl s, rfl⟩

theorem push16_frame (t : StackId) (h : Half) (s : State) : FlowFrame s (push16 t h s) := by
  by_cases ho : stackBytes ≤ top s t
  · rw [push16_full t h s ho]
    exact .inr ⟨t, _, rfl, fatalStop_frame _ s, rfl⟩
  · rw [push16_room t h s (by omega)]
    have h1 := guardedWrite_frame ((s.stack t).base.toNat + (s.stack t).off.toNat) .narrow
      (h.setWidth 32) s
    exact .inl ⟨(), _, rfl, h1.1.trans (setOff_frame t _ _), (State.setOff_run ..).trans h1.2⟩

theorem push_frame (t : StackId) (w : Width) (v : Word) (s : State) : FlowFrame s (push t w v s) := by
  cases w with
  | narrow => exact push16_frame t _ s
  | wide => exact (push16_frame t _ s).bind fun _ u => push16_frame t _ u

theorem pop_frame (t : StackId) (w : Width) (keep : Bool) (s : State) :
    FlowFrame s (pop t w keep s) := by
  have h1 := popValue_frame t w s
  cases keep with
  | false => exact .inl ⟨_, _, rfl, h1.1, h1.2⟩
  | true =>
    have h2 := (push_frame t w (popValue t w s).1 (popValue t w s).2).bind
      (f := fun _ u => Flow.cont (popValue t w s).1 u) fun _ u => .cont u _
    unfold pop
    rw [if_pos rfl]
    rcases h2 with ⟨a, u, he, hu, hr⟩ | ⟨t', u, he, hu, hr⟩
    · exact .inl ⟨a, u, he, h1.1.trans hu, hr.trans h1.2⟩
    · exact .inr ⟨t', u, he, h1.1.trans hu, by rw [hr, h1.1.ip]⟩

/-! ## The MMU -/

theorem mmuRead_frame (a : Word) (w : Width) (s : State) :
    EngineFrame s (mmuRead a w s).2 ∧ (mmuRead a w s).2.run = s.run := by
  unfold mmuRead ioRead
  split
  · split
    · exact ⟨raiseFault_frame _ s, rfl⟩
    · split
      · exact ⟨.refl s, rfl⟩
      · exact ⟨raiseFault_frame _ s, rfl⟩
  · split
    · exact guardedRead_frame _ _ s
    · exact ⟨raiseFault_frame _ s, rfl⟩

/-- A read through the MMU changes nothing but the cause and the pending latch (R80). -/
theorem mmuRead_state (a : Word) (w : Width) (s : State) :
    (mmuRead a w s).2 = s ∨ ∃ k, mmuRead a w s = (0, raiseFault k s) := by
  unfold mmuRead ioRead
  split
  · split
    · exact .inr ⟨_, rfl⟩
    · split
      · exact .inl rfl
      · exact .inr ⟨_, rfl⟩
  · split
    · rcases guardedRead_cases a.toNat w s with h | h | h <;> rw [h]
      · exact .inl rfl
      · exact .inr ⟨_, rfl⟩
      · exact .inr ⟨_, rfl⟩
    · exact .inr ⟨_, rfl⟩

theorem fetchRead16_frame (a : Word) (s : State) :
    EngineFrame s (fetchRead16 a s).2 ∧ (fetchRead16 a s).2.run = s.run := mmuRead_frame a .narrow s

theorem withImmediate_frame (i : Instr) (a : Word) (s : State) :
    EngineFrame s (withImmediate i a s).2 ∧ (withImmediate i a s).2.run = s.run := by
  cases i with
  | lit f imm =>
    show EngineFrame s (fetchImmediate (a + 2) f.width s).2 ∧ (fetchImmediate (a + 2) f.width s).2.run = s.run
    unfold fetchImmediate
    cases f.width with
    | narrow => exact fetchRead16_frame _ s
    | wide =>
      have h1 := fetchRead16_frame (a + 2) s
      have h2 := fetchRead16_frame (a + 2 + 2) (fetchRead16 (a + 2) s).2
      exact ⟨h1.1.trans h2.1, h2.2.trans h1.2⟩
  | _ => exact ⟨.refl s, rfl⟩

/-- What a write through the MMU leaves, whatever the address. -/
structure WriteFrame (s u : State) : Prop where
  ip : u.ip = s.ip
  cr : u.cr = s.cr
  pending : s.pending = true → u.pending = true
  outputTrace : u.outputTrace = s.outputTrace
  stopped : u.stopped = s.stopped
  params : u.params = s.params
  run : u.run = s.run
  output : (u.outq = s.outq ∧ u.outReady = s.outReady) ∨
    ∃ b, u.outq = s.outq ++ [b] ∧ u.outReady = false
  memOk : MemOk s → MemOk u

theorem EngineFrame.write {s u : State} (h : EngineFrame s u) (hr : u.run = s.run) : WriteFrame s u :=
  ⟨h.ip, h.cr, h.pending, h.outputTrace, h.stopped, h.params, hr, .inl ⟨h.outq, h.outReady⟩, h.memOk⟩

theorem ioRegWrite_frame (r : IoReg) (v : Word) (s : State) : WriteFrame s (ioRegWrite r v s) := by
  cases r with
  | poff => exact (setOff_frame .P _ s).write (by simp)
  | roff => exact (setOff_frame .R _ s).write (by simp)
  | out => exact ⟨rfl, rfl, id, rfl, rfl, rfl, rfl, .inr ⟨_, rfl, rfl⟩, id⟩
  | ipr => exact (raiseFault_frame _ s).write rfl
  | crr => exact (raiseFault_frame _ s).write rfl
  | swireq => exact ⟨rfl, rfl, fun _ => rfl, rfl, rfl, rfl, rfl, .inl ⟨rfl, rfl⟩, id⟩
  | _ => exact ⟨rfl, rfl, id, rfl, rfl, rfl, rfl, .inl ⟨rfl, rfl⟩, id⟩

theorem mmuWrite_frame (a : Word) (w : Width) (v : Word) (s : State) :
    WriteFrame s (mmuWrite a w v s) := by
  unfold mmuWrite ioWrite
  split
  · split
    · exact (raiseFault_frame _ s).write rfl
    · split
      · exact ioRegWrite_frame _ _ s
      · exact (raiseFault_frame _ s).write rfl
  · split
    · have h := guardedWrite_frame a.toNat w v s
      exact h.1.write h.2
    · exact (raiseFault_frame _ s).write rfl

/-! ## The windows of the MMU (R62, R63) -/

/-- A read of the memory window goes to the guarded accessor at the same index (R62, R65). -/
theorem mmuRead_window {a : Word} {w : Width} {s : State} (h1 : memLo ≤ a.toNat)
    (h2 : a.toNat ≤ s.params.memWinHi) : mmuRead a w s = guardedRead a.toNat w s := by
  unfold mmuRead
  rw [if_neg (by unfold ioHi; unfold memLo at h1; omega), if_pos ⟨h1, h2⟩]

theorem mmuWrite_window {a : Word} {w : Width} {v : Word} {s : State} (h1 : memLo ≤ a.toNat)
    (h2 : a.toNat ≤ s.params.memWinHi) : mmuWrite a w v s = guardedWrite a.toNat w v s := by
  unfold mmuWrite
  rw [if_neg (by unfold ioHi; unfold memLo at h1; omega), if_pos ⟨h1, h2⟩]

/-- An aligned read of the I/O window goes to its registers (R62). -/
theorem mmuRead_io {a : Word} {w : Width} {s : State} (h1 : a.toNat ≤ ioHi)
    (h2 : a.toNat % w.bytes = 0) : mmuRead a w s = ioRead a.toNat w s := by
  unfold mmuRead
  rw [if_pos ⟨Nat.zero_le _, h1⟩, if_neg (by omega)]

theorem mmuWrite_io {a : Word} {w : Width} {v : Word} {s : State} (h1 : a.toNat ≤ ioHi)
    (h2 : a.toNat % w.bytes = 0) : mmuWrite a w v s = ioWrite a.toNat w v s := by
  unfold mmuWrite
  rw [if_pos ⟨Nat.zero_le _, h1⟩, if_neg (by omega)]

/-- An instruction-stream read of two bytes in the memory (R66). -/
theorem fetchRead16_window {a : Word} {s : State} (h : InMemory s a .narrow) :
    fetchRead16 a s = (halfOfBytes (s.mem.read a.toNat) (s.mem.read (a.toNat + 1)), s) := by
  obtain ⟨h1, h2, h3, h4⟩ := h
  unfold fetchRead16
  simp only [mmuRead_window h1 h2, guardedRead_inside s h3 h4]
  congr 1
  apply BitVec.eq_of_toNat_eq
  have b0 := (s.mem.read a.toNat).isLt
  have b1 := (s.mem.read (a.toNat + 1)).isLt
  have e : (halfOfBytes (s.mem.read a.toNat) (s.mem.read (a.toNat + 1))).toNat =
      2 ^ 8 * (s.mem.read (a.toNat + 1)).toNat + (s.mem.read a.toNat).toNat := by
    unfold halfOfBytes
    rw [BitVec.toNat_append, ← Nat.shiftLeft_add_eq_or_of_lt b0, Nat.shiftLeft_eq]
    omega
  rw [e, BitVec.toNat_setWidth, BitVec.toNat_ofNat]
  simp only [memRead, Width.bytes]
  omega

end Sys2Proof.Machine
end

