-- ==== Sys2Proof/Laws/StackChain.lean ====
section
/-!
SUPPORT. The stack engine in the middle of an instruction: what `pop`, a keep `pop` and `push` do in the
state `(s.setOff t k).setMem m`, the form every intermediate state of a stack instruction has. Chained,
these three lemmas give a stack instruction's whole effect over its first state `s`.
-/

namespace Sys2Proof.Machine

/-- A value that fits the width is its own low part. -/
theorem low_of_lt (w : Width) (v : Word) (h : v.toNat < 2 ^ (8 * w.bytes)) : w.low v = v := by
  cases w with
  | narrow =>
    apply BitVec.eq_of_toNat_eq
    simp only [Width.low, Width.bytes, BitVec.toNat_setWidth] at *
    omega
  | wide => rfl

/-- The value `copy` shows fits its width. -/
theorem copy_low (s : State) (t : StackId) (i : Nat) (w : Width) :
    w.low (copy s t i w) = copy s t i w := by
  apply low_of_lt
  cases w with
  | narrow =>
    show ((copyHalf s t i).setWidth 32).toNat < _
    have := (copyHalf s t i).isLt
    simp only [BitVec.toNat_setWidth, Width.bytes]; omega
  | wide => exact (copy s t i .wide).isLt

theorem setOff_top_self (s : State) (t : StackId) (n : Nat) (h : n = top s t) :
    s.setOff t (BitVec.ofNat 16 n) = s := by
  subst h; unfold top; rw [BitVec.ofNat_toNat, BitVec.setWidth_eq]; exact State.setOff_self s t

/-- `copy` after a change of memory that leaves the bytes it covers. -/
theorem copy_setMem_congr {s : State} {t : StackId} {i : Nat} {w : Width} {m : Memory}
    (h : ∀ a, InSlots s t (i - w.bytes) i a → m.read a = s.mem.read a) :
    copy (s.setMem m) t i w = copy s t i w :=
  copy_congr (by simp) (by simp) (by simpa using h)

/-- An offset within the bound keeps a readable stack readable. -/
theorem StackSound.at {s : State} {t : StackId} (hs : StackSound t s) (m : Memory) {k : Nat}
    (h2 : k % 2 = 0) (hk : k ≤ 256) :
    StackSound t ((s.setOff t (BitVec.ofNat 16 k)).setMem m) ∧
      top ((s.setOff t (BitVec.ofNat 16 k)).setMem m) t = k := by
  have e : (BitVec.ofNat 16 k).toNat = k := off_ofNat _ (by omega)
  have ht : top ((s.setOff t (BitVec.ofNat 16 k)).setMem m) t = k := by
    simp only [top_setMem, top_setOff, e]
  obtain ⟨a1, -, -, a4⟩ := hs
  unfold stackBytes at *
  exact ⟨⟨by simpa using a1, by rw [ht]; exact h2, by rw [ht]; exact hk, by
    unfold stackBytes; simpa using a4⟩, ht⟩

/-- A pop without `keep` at offset `k`. -/
theorem pop_at (t : StackId) (w : Width) (s : State) (k : Nat) (m : Memory) (hm : m.wf)
    (hs : StackSound t s) (h2 : k % 2 = 0) (hk : k ≤ 256) :
    ∃ m', pop t w false ((s.setOff t (BitVec.ofNat 16 k)).setMem m) = .cont (copy (s.setMem m) t k w)
        ((s.setOff t (BitVec.ofNat 16 (k - w.bytes))).setMem m') ∧ Memory.wf m' ∧
      ∀ a, m'.read a = if InSlots s t (k - w.bytes) k a then 0 else m.read a := by
  obtain ⟨h, e⟩ := hs.at m h2 hk
  obtain ⟨m', h1, h2, h3⟩ := pop_discard_sound t w _ hm h
  refine ⟨m', ?_, h2, ?_⟩
  · rw [h1, e]
    congr 1
    · apply copy_congr <;> simp
    · simp
  · intro a; rw [h3, e]; simp [InSlots]

/-- A push at offset `k` with room: what `copy` shows of it in any later state that keeps its slots. -/
theorem push_at (t : StackId) (w : Width) (v : Word) (s : State) (k : Nat) (m : Memory) (hm : m.wf)
    (hs : StackSound t s) (h2 : k % 2 = 0) (hk : k + w.bytes ≤ 256) :
    ∃ m', push t w v ((s.setOff t (BitVec.ofNat 16 k)).setMem m) = .cont ()
        ((s.setOff t (BitVec.ofNat 16 (k + w.bytes))).setMem m') ∧ Memory.wf m' ∧
      (∀ u : State, baseOf u t = baseOf s t → u.params = s.params →
        (∀ a, InSlots s t k (k + w.bytes) a → u.mem.read a = m'.read a) →
          copy u t (k + w.bytes) w = w.low v) ∧
      ∀ a, ¬ InSlots s t k (k + w.bytes) a → m'.read a = m.read a := by
  obtain ⟨h, e⟩ := hs.at m h2 (by omega)
  obtain ⟨m', h1, h2', h3, h4⟩ := push_placed t w v _ hm ⟨h.1, h.2.1, h.2.2.2⟩ (by rw [e]; exact hk)
  rw [e] at h1 h3 h4
  simp only [State.setOff_setMem, State.setOff_setOff, State.setMem_setMem, baseOf_setMem,
    baseOf_setOff, InSlots, State.setMem_mem] at *
  refine ⟨m', h1, h2', fun u hb hp hu => ?_, h4⟩
  obtain ⟨-, -, -, a4⟩ := hs
  unfold stackBytes at *
  apply copy_of_bytes (by omega) (by rw [hb, hp]; omega)
  intro j hj
  rw [← h3 j hj, hb, hu _ (by omega)]
  congr 1; omega

/-- A keep pop at offset `k`: the value stays readable, and where the stack held it the memory is as
before (R136). -/
theorem keep_at (t : StackId) (w : Width) (s : State) (k : Nat) (m : Memory) (hm : m.wf)
    (hs : StackSound t s) (h2 : k % 2 = 0) (hk : k ≤ 256) :
    ∃ m', pop t w true ((s.setOff t (BitVec.ofNat 16 k)).setMem m) = .cont (copy (s.setMem m) t k w)
        ((s.setOff t (BitVec.ofNat 16 (k - w.bytes + w.bytes))).setMem m') ∧ Memory.wf m' ∧
      (∀ u : State, baseOf u t = baseOf s t → u.params = s.params →
        (∀ a, InSlots s t (k - w.bytes) (k - w.bytes + w.bytes) a → u.mem.read a = m'.read a) →
          copy u t (k - w.bytes + w.bytes) w = copy (s.setMem m) t k w) ∧
      (w.bytes ≤ k → m' = m) ∧
      ∀ a, ¬ InSlots s t (k - w.bytes) (k - w.bytes + w.bytes) a → m'.read a = m.read a := by
  obtain ⟨h, e⟩ := hs.at m h2 hk
  obtain ⟨m', h1, h2', h3, h4⟩ := pop_keep_sound t w _ hm h
  rw [e] at h1 h3 h4
  have cc : copy ((s.setOff t (BitVec.ofNat 16 k)).setMem m) t k w = copy (s.setMem m) t k w := by
    apply copy_congr <;> simp
  rw [cc] at h1 h3
  simp only [State.setOff_setMem, State.setOff_setOff, State.setMem_setMem, baseOf_setMem,
    baseOf_setOff, InSlots, State.setMem_mem] at h1 h3 h4
  obtain ⟨-, -, -, a4⟩ := hs
  have hw := Width.bytes_cases w
  unfold stackBytes at a4
  refine ⟨m', h1, h2', fun u hb hp hu => ?_, fun hle => ?_, h4⟩
  · rw [← copy_low (s.setMem m)]
    apply copy_of_bytes (by omega) (by rw [hb, hp]; omega)
    intro j hj
    rw [← h3 j hj, hb, hu _ (by unfold InSlots; omega)]
    congr 1; omega
  · apply Memory.eq_of_read h2' hm
    intro a
    by_cases ha : InSlots s t (k - w.bytes) (k - w.bytes + w.bytes) a
    · have hj := h3 (a - (baseOf s t + (k - w.bytes))) (by unfold InSlots at ha; omega)
      have hr := read_of_copy (s := s.setMem m) (t := t) (i := k) (w := w)
        (j := a - (baseOf s t + (k - w.bytes))) hle (by simp; omega)
        (by unfold InSlots at ha; omega)
      rw [← hr] at hj
      simp only [baseOf_setMem, State.setMem_mem] at hj
      rwa [show baseOf s t + (k - w.bytes) + (a - (baseOf s t + (k - w.bytes))) = a by
        unfold InSlots at ha; omega] at hj
    · exact h4 a ha

end Sys2Proof.Machine
end

