-- ==== Sys2Proof/Laws/Exec.lean ====
section
/-!
SUPPORT. Everything one instruction can do in any state, said once (`exec_does`), with the laws of `SetIP`
and of the condition bits it rests on. Statements over all instructions cite it and unfold no meaning.
-/

namespace Sys2Proof.Machine

/-! ## `SetIP` (R160) -/

theorem clearBit0_even (v : Word) : (clearBit0 v).toNat % 2 = 0 := by
  unfold clearBit0
  rw [BitVec.toNat_and]
  have h : (v.toNat &&& (0xFFFFFFFE : Word).toNat).testBit 0 = false := by
    rw [Nat.testBit_and]; simp
  rw [Nat.testBit_zero] at h
  simp only [decide_eq_false_iff_not] at h
  exact Nat.mod_two_ne_one.1 h

theorem clearBit0_of_even {v : Word} (h : v.getLsbD 0 = false) : clearBit0 v = v := by
  unfold clearBit0
  apply BitVec.eq_of_getLsbD_eq
  intro i hi
  rw [BitVec.getLsbD_and]
  rcases Nat.eq_zero_or_pos i with rfl | h'
  · rw [h]; rfl
  · have hb : (0xFFFFFFFE#32).getLsbD i = true := by interval_cases i <;> rfl
    simp [hb]

/-- `SetIP` in both its cases. -/
theorem setIp_eq (v : Word) (s : State) :
    setIp v s = { (if v.getLsbD 0 then raised 0x80000001 s else s) with ip := clearBit0 v } := by
  unfold setIp
  cases h : v.getLsbD 0
  · rw [if_neg (by decide), if_neg (by decide), clearBit0_of_even h]
  · rw [if_pos rfl, if_pos rfl]; rfl

/-- What `SetIP` leaves: all but `IP`, and for an odd target the cause and the pending latch. -/
structure JumpFrame (s u : State) : Prop where
  ipEven : u.ip.toNat % 2 = 0
  cr : u.cr = s.cr
  primary : u.primary = s.primary
  ret : u.ret = s.ret
  jv : u.sic.jv = s.sic.jv
  ra : u.sic.ra = s.sic.ra
  pending : s.pending = true → u.pending = true
  outReady : u.outReady = s.outReady
  outq : u.outq = s.outq
  outputTrace : u.outputTrace = s.outputTrace
  run : u.run = s.run
  stopped : u.stopped = s.stopped
  mem : u.mem = s.mem
  params : u.params = s.params

theorem setIp_frame (v : Word) (s : State) : JumpFrame s (setIp v s) := by
  rw [setIp_eq]
  have h := clearBit0_even v
  split
  · exact ⟨h, rfl, rfl, rfl, rfl, rfl, fun _ => rfl, rfl, rfl, rfl, rfl, rfl, rfl, rfl⟩
  · exact ⟨h, rfl, rfl, rfl, rfl, rfl, id, rfl, rfl, rfl, rfl, rfl, rfl, rfl⟩

/-! ## The condition bits `Cmp` writes (R205) -/

theorem conditionOf_cases (a b : Word) :
    conditionOf a b = ⟨true, false, false⟩ ∨ conditionOf a b = ⟨false, true, false⟩ ∨
      conditionOf a b = ⟨false, false, true⟩ := by
  unfold conditionOf
  rcases lt_trichotomy a.toNat b.toNat with h | h | h
  · right; right; simp [h, show a ≠ b by rintro rfl; omega]; omega
  · left; have := BitVec.eq_of_toNat_eq h; subst this; simp
  · right; left; simp [h, show a ≠ b by rintro rfl; omega]; omega

/-! ## A value read through the MMU -/

/-- It fits the width of the read (R62, R77). -/
theorem mmuRead_low (a : Word) (w : Width) (s : State) :
    w.low (mmuRead a w s).1 = (mmuRead a w s).1 := by
  have hz : w.low 0 = 0 := by cases w <;> rfl
  unfold mmuRead ioRead
  split
  · split
    · exact hz
    · split
      · cases w <;> simp [Width.low]
      · exact hz
  · split
    · rcases guardedRead_cases a.toNat w s with h | h | h <;> rw [h]
      · apply low_of_lt
        rw [BitVec.toNat_ofNat]
        exact lt_of_le_of_lt (Nat.mod_le _ _) (memRead_lt _ _ _)
      · exact hz
      · exact hz
    · exact hz

/-! ## One instruction -/

/-- How an instruction that went through the stack engine only ends. -/
theorem FlowFrame.outcome {α : Type} {s : State} {x : Flow α} (h : FlowFrame s x) :
    ∃ u, x.outcome = .next u ∧ EngineFrame s u ∧
      (u.run = s.run ∨ ∃ t, u.run = .fatal (.stackOverflow t s.ip)) := by
  rcases h with ⟨a, u, rfl, hu, hr⟩ | ⟨t, u, rfl, hu, hr⟩
  · exact ⟨u, rfl, hu, .inl hr⟩
  · exact ⟨u, rfl, hu, .inr ⟨t, hr⟩⟩

/-- What `i` can make of `s`: stack and cause work, possibly stopped by StackOverflow; `Halt`; for `Str`,
`Cmp` and `Jsr`, after unstopped stack work, the write, the condition bits or the jump. -/
inductive ExecDoes (i : Instr) (s u : State) : Prop where
  | engine (hu : EngineFrame s u) (hi : ∀ f, i ≠ .halt f)
      (hr : u.run = s.run ∨ ∃ t, u.run = .fatal (.stackOverflow t s.ip))
      (hc : ∀ f, i = .cmp f → ∃ t, u.run = .fatal (.stackOverflow t s.ip))
  | halt (f : Flags) (hi : i = .halt f) (hu : u = { s with run := .halted })
  | store (f : Flags) (v : State) (hi : i = .str f) (hv : EngineFrame s v) (hr : v.run = s.run)
      (hu : WriteFrame v u)
  | condition (f : Flags) (v : State) (a b : Word) (hi : i = .cmp f) (hv : EngineFrame s v)
      (hr : v.run = s.run) (hu : u = { v with cr := conditionOf a b })
  | jump (f : Flags) (v : State) (a : Word) (hi : i = .jsr f) (hv : EngineFrame s v)
      (hr : v.run = s.run) (hu : u = setIp a v)

theorem exec_does_of_flow {α : Type} {i : Instr} {s : State} {x : Flow α} (h : FlowFrame s x)
    (he : exec i s = x.outcome) (hh : ∀ f, i ≠ .halt f) (hc : ∀ f, i ≠ .cmp f) :
    ∃ u, exec i s = .next u ∧ ExecDoes i s u := by
  obtain ⟨u, h1, h2, h3⟩ := h.outcome
  exact ⟨u, he.trans h1, .engine h2 hh h3 fun f hf => absurd hf (hc f)⟩

/-- The two pops of `Str` and `Cmp`, their values kept. -/
theorem popPair_frame (t : StackId) (w x : Width) (k : Bool) (s : State) :
    FlowFrame s ((pop t w k s).bind fun a s => (pop t x k s).bind fun d s => .cont (a, d) s) :=
  (pop_frame ..).bind fun _ _ => (pop_frame ..).bind fun _ _ => .cont ..

theorem popPair_bind {α : Type} (t : StackId) (w x : Width) (k : Bool) (s : State)
    (g : Word → Word → State → Flow α) :
    ((pop t w k s).bind fun a s => (pop t x k s).bind fun d s => g a d s) =
      ((pop t w k s).bind fun a s => (pop t x k s).bind fun d s => .cont (a, d) s).bind
        fun p s => g p.1 p.2 s := by
  cases pop t w k s with
  | stop u => rfl
  | cont a u =>
    simp only [Flow.bind_cont]
    cases pop t x k u <;> rfl

/-- The stack work of `Jsr` up to `SetIP`, in both forms. -/
theorem execJsr_flow (f : Flags) (s : State) :
    ∃ x : Flow Word, FlowFrame s x ∧
      execJsr f s = (x.bind fun a s => .cont () (setIp a s)).outcome := by
  unfold execJsr
  cases f.ret
  · refine ⟨(pop .R .narrow f.keep s).bind fun a u =>
      (push .R .wide (u.ip + 2) u).bind fun _ u => .cont a u,
      (pop_frame ..).bind fun _ _ => (push_frame ..).bind fun _ _ => .cont .., ?_⟩
    simp only [Bool.false_eq_true, if_false, jsrCall]
    cases pop .R .narrow f.keep s with
    | stop u => rfl
    | cont a u =>
      simp only [Flow.bind_cont]
      cases push .R .wide (u.ip + 2) u <;> rfl
  · refine ⟨(push .P .wide (s.ip + 2) s).bind fun _ u => pop .R f.width f.keep u,
      (push_frame ..).bind fun _ _ => pop_frame .., ?_⟩
    simp only [if_true, jsrReturn]
    cases push .P .wide (s.ip + 2) s <;> rfl

/-- Every instruction in every state answers a next state, and only these. -/
theorem exec_does (i : Instr) (s : State) : ∃ u, exec i s = .next u ∧ ExecDoes i s u := by
  cases i with
  | nop f =>
    exact ⟨s, rfl, .engine (.refl s) (fun _ h => by cases h) (.inl rfl) fun _ h => by cases h⟩
  | halt f => exact ⟨_, rfl, .halt f rfl rfl⟩
  | lit f imm =>
    exact exec_does_of_flow (push_frame (selected f) f.width imm s) rfl (by simp) (by simp)
  | dup f =>
    exact exec_does_of_flow ((pop_frame (selected f) f.width true s).bind
      (f := fun v s => push (selected f).other f.width v s) fun _ _ => push_frame ..) rfl
      (by simp) (by simp)
  | ovr f =>
    exact exec_does_of_flow ((pop_frame (selected f) f.width false s).bind (f := fun v0 s =>
      (pop (selected f) f.width false s).bind fun v1 s =>
      (pop (selected f) f.width false s).bind fun v2 s =>
      (push (selected f) f.width v2 s).bind fun _ s =>
      (push (selected f) f.width v0 s).bind fun _ s => push (selected f) f.width v1 s) fun _ _ =>
        (pop_frame ..).bind fun _ _ => (pop_frame ..).bind fun _ _ => (push_frame ..).bind fun _ _ =>
        (push_frame ..).bind fun _ _ => push_frame ..) rfl (by simp) (by simp)
  | push f =>
    exact exec_does_of_flow ((pop_frame (selected f) f.width f.keep s).bind
      (f := fun v s => push (selected f) f.width v s) fun _ _ => push_frame ..) rfl
      (by simp) (by simp)
  | drop f =>
    exact exec_does_of_flow (pop_frame (selected f) f.width false s) rfl (by simp) (by simp)
  | load f =>
    refine exec_does_of_flow ((pop_frame (selected f) .wide f.keep s).bind (f := fun a s =>
      push (selected f) f.width (mmuRead a f.width s).1 (mmuRead a f.width s).2) fun a u => ?_) rfl
      (by simp) (by simp)
    have h1 := mmuRead_frame a f.width u
    rcases push_frame (selected f) f.width (mmuRead a f.width u).1 (mmuRead a f.width u).2 with
      ⟨b, v, hb, hv, hr⟩ | ⟨t, v, hb, hv, hr⟩
    · exact .inl ⟨b, v, hb, h1.1.trans hv, hr.trans h1.2⟩
    · exact .inr ⟨t, v, hb, h1.1.trans hv, by rw [hr, h1.1.ip]⟩
  | str f =>
    show ∃ u, execStr f s = _ ∧ _
    unfold execStr
    rw [popPair_bind]
    rcases popPair_frame (selected f) .wide f.width f.keep s with
      ⟨a, u, e, hu, hr⟩ | ⟨t, u, e, hu, hr⟩ <;> rw [e]
    · exact ⟨_, rfl, .store f u rfl hu hr (mmuWrite_frame ..)⟩
    · exact ⟨_, rfl, .engine hu (by simp) (.inr ⟨t, hr⟩) (by simp)⟩
  | cmp f =>
    show ∃ u, execCmp f s = _ ∧ _
    unfold execCmp
    rw [popPair_bind]
    rcases popPair_frame (selected f) f.width f.width f.keep s with
      ⟨a, u, e, hu, hr⟩ | ⟨t, u, e, hu, hr⟩ <;> rw [e]
    · exact ⟨_, rfl, .condition f u a.1 a.2 rfl hu hr rfl⟩
    · exact ⟨_, rfl, .engine hu (by simp) (.inr ⟨t, hr⟩) fun _ _ => ⟨t, hr⟩⟩
  | jsr f =>
    show ∃ u, execJsr f s = _ ∧ _
    obtain ⟨x, hx, he⟩ := execJsr_flow f s
    rw [he]
    rcases hx with ⟨a, u, e, hu, hr⟩ | ⟨t, u, e, hu, hr⟩ <;> rw [e]
    · exact ⟨_, rfl, .jump f u a rfl hu hr rfl⟩
    · exact ⟨_, rfl, .engine hu (by simp) (.inr ⟨t, hr⟩) (by simp)⟩

/-- The same, from an outcome. -/
theorem exec_next {i : Instr} {s u : State} (h : exec i s = .next u) : ExecDoes i s u := by
  obtain ⟨v, h1, h2⟩ := exec_does i s
  rw [h] at h1
  injection h1 with h1
  subst h1
  exact h2

end Sys2Proof.Machine
end

