-- ==== Sys2Proof/Laws/PerInstr.lean ====
section
/-!
SUPPORT. Statements made per instruction: the family `EncodedLength`.
-/

namespace Sys2Proof.Laws

/-- The encoding of an instruction has exactly the length its first word tells (R100, R101), whatever
its flags and immediate. -/
def EncodedLength.Statement (i : Instr) : Prop := (encode i).length = i.length

theorem EncodedLength.nop (f : Flags) : EncodedLength.Statement (.nop f) := rfl

theorem EncodedLength.lit (f : Flags) (imm : Word) : EncodedLength.Statement (.lit f imm) := by
  obtain ⟨k, r, sh, e, g, l, res⟩ := f
  cases sh <;> rfl

theorem EncodedLength.dup (f : Flags) : EncodedLength.Statement (.dup f) := rfl

theorem EncodedLength.ovr (f : Flags) : EncodedLength.Statement (.ovr f) := rfl

theorem EncodedLength.str (f : Flags) : EncodedLength.Statement (.str f) := rfl

theorem EncodedLength.load (f : Flags) : EncodedLength.Statement (.load f) := rfl

theorem EncodedLength.push (f : Flags) : EncodedLength.Statement (.push f) := rfl

theorem EncodedLength.drop (f : Flags) : EncodedLength.Statement (.drop f) := rfl

theorem EncodedLength.jsr (f : Flags) : EncodedLength.Statement (.jsr f) := rfl

theorem EncodedLength.cmp (f : Flags) : EncodedLength.Statement (.cmp f) := rfl

theorem EncodedLength.halt (f : Flags) : EncodedLength.Statement (.halt f) := rfl

end Sys2Proof.Laws
end

