-- ==== Sys2Proof/Tests/Slice0.lean ====
section
/-!
SUPPORT. Tests. Every expected result is taken from the spec: the encodings and the vectors V-… and S-… of
95_test_vectors.md, named in each test's docstring, on the test machine of its section 0. The theorems
`witness_…` show, for each obligation with hypotheses, concrete values that meet them together.
-/

namespace Sys2Proof.Tests

open Sys2Proof Sys2Proof.Machine

/-! ## Helpers -/

/-- The test machine with the slots `p` on the primary stack and `r` on the return stack, bottom first. -/
def start (p r : List Half) : State :=
  { State.reset with
    primary := { base := 0x400, off := BitVec.ofNat 16 (2 * p.length) }
    ret := { base := 0x500, off := BitVec.ofNat 16 (2 * r.length) }
    mem := Memory.load (Memory.load [] 0x400 (p.flatMap bytesOfHalf)) 0x500 (r.flatMap bytesOfHalf) }

/-- `start` with bytes stored from an address on. -/
def startWith (p r : List Half) (a : Nat) (bs : List Byte) : State :=
  let s := start p r
  s.setMem (s.mem.load a bs)

/-- The next state, where the outcome is one. -/
def nextState (o : Host.Outcome State Fault Refusal) : Option State :=
  match o with
  | .next s => some s
  | .fault _ => none
  | .refused _ => none

/-- Whether the outcome is a next state that meets `p`. -/
def nextMeets (o : Host.Outcome State Fault Refusal) (p : State → Bool) : Bool :=
  match o with
  | .next s => p s
  | .fault _ => false
  | .refused _ => false

/-- What decodes, without the error. -/
def decoded (bs : List Byte) : Option (Instr × List Byte) :=
  match decode bs with
  | .ok r => some r
  | .error _ => none

/-! ## Well-formed instructions: the ill-formed term of the one check is refused -/

theorem test_wf_lit_too_wide_refused : (Instr.lit {} 0x10000).wf = false := by decide
theorem test_wf_lit_fits : (Instr.lit {} 0xFFFF).wf = true := by decide
theorem test_wf_lit_short_any : (Instr.lit { short := true } 0xFFFFFFFF).wf = true := by decide

/-! ## Decoding: the bytes of section 2.1 -/

theorem test_decode_nop : decoded [0x00, 0x00] = some (.nop {}, []) := by decide
theorem test_decode_nop_flags : decoded [0x00, 0x0B] =
    some (.nop { keep := true, ret := true, ifEqual := true }, []) := by decide
theorem test_decode_lit : decoded [0x01, 0x00, 0x34, 0x12] = some (.lit {} 0x1234, []) := by decide
theorem test_decode_lit_short : decoded [0x01, 0x04, 0x78, 0x56, 0x34, 0x12] =
    some (.lit { short := true } 0x12345678, []) := by decide
theorem test_decode_lit_gated : decoded [0x01, 0x22, 0x00, 0x06] =
    some (.lit { ret := true, ifLess := true } 0x600, []) := by decide
theorem test_decode_dup : decoded [0x02, 0x02] = some (.dup { ret := true }, []) := by decide
theorem test_decode_over : decoded [0x03, 0x04] = some (.ovr { short := true }, []) := by decide
theorem test_decode_str : decoded [0x04, 0x04] = some (.str { short := true }, []) := by decide
theorem test_decode_load : decoded [0x05, 0x06] =
    some (.load { ret := true, short := true }, []) := by decide
theorem test_decode_push : decoded [0x06, 0x03] =
    some (.push { keep := true, ret := true }, []) := by decide
theorem test_decode_drop : decoded [0x07, 0x06] =
    some (.drop { ret := true, short := true }, []) := by decide
theorem test_decode_jsr : decoded [0x08, 0x38] =
    some (.jsr { ifEqual := true, ifGreater := true, ifLess := true }, []) := by decide
theorem test_decode_cmp : decoded [0x09, 0x01] = some (.cmp { keep := true }, []) := by decide
theorem test_decode_halt : decoded [0x0A, 0x00] = some (.halt {}, []) := by decide
theorem test_decode_reserved : decoded [0x00, 0xC0] = some (.nop { reserved := 3 }, []) := by decide
theorem test_decode_illegal_low : decoded [0x0B, 0x00] = none := by decide
theorem test_decode_illegal_high : decoded [0xFF, 0x08] = none := by decide
theorem test_decode_truncated : decoded [0x01, 0x04, 0x78, 0x56, 0x34] = none := by decide

/-- S-LIT-ENC. -/
theorem test_encode_lit_short : encode (.lit { short := true } 0xAABBCCDD) =
    [0x01, 0x04, 0xDD, 0xCC, 0xBB, 0xAA] := by decide

/-- The third encoding of S-IRET-ENC. -/
theorem test_encode_jsr : encode (.jsr { ret := true, short := true }) = [0x08, 0x06] := by decide

/-! ## One instruction: at most two vectors each -/

/-- V-LIT-1. -/
theorem test_lit_pushes :
    nextState (exec (.lit {} 0x1234) (start [] [])) = some (start [0x1234] []) := by decide
/-- V-LIT-3. -/
theorem test_lit_return :
    nextState (exec (.lit { ret := true } 0x610) (start [] [])) = some (start [] [0x610]) := by decide
/-- V-DUP-3. -/
theorem test_dup_wide : nextState (exec (.dup { short := true }) (start [0xCCDD, 0xAABB] [])) =
    some (start [0xCCDD, 0xAABB] [0xCCDD, 0xAABB]) := by decide
/-- V-DUP-7. -/
theorem test_dup_grows : nextState (exec (.dup { short := true }) (start [0x1234] [])) =
    some (start [0, 0x1234] [0, 0x1234]) := by decide
/-- V-OVER-7. -/
theorem test_over_keep_ignored : nextState (exec (.ovr { keep := true }) (start [9, 1, 2, 3] [])) =
    some (start [9, 1, 3, 2] []) := by decide
/-- V-OVER-3. -/
theorem test_over_underflow :
    nextState (exec (.ovr {}) (start [7] [])) = some (start [0, 7, 0] []) := by decide
/-- V-PUSH-5. -/
theorem test_push_keep : nextState (exec (.push { ret := true, keep := true }) (start [] [3])) =
    some (start [] [3, 3]) := by decide
/-- V-PUSH-3. -/
theorem test_push_empty : nextState (exec (.push {}) (start [] [])) = some (start [0] []) := by decide
/-- V-DROP-1. -/
theorem test_drop : nextState (exec (.drop {}) (start [1, 2] [])) = some (start [1] []) := by decide
/-- V-DROP-5. -/
theorem test_drop_underflow :
    nextState (exec (.drop { short := true }) (start [5] [])) = some (start [] []) := by decide
/-- V-STR-2. -/
theorem test_str_wide :
    nextState (exec (.str { short := true }) (start [0xCCDD, 0xAABB, 0x1000, 0] [])) =
      some (startWith [] [] 0x1000 [0xDD, 0xCC, 0xBB, 0xAA]) := by decide
/-- V-STR-9. -/
theorem test_str_out : nextState (exec (.str {}) (start [0x0141, 0x100, 0] [])) =
    some { start [] [] with outq := [0x41], outReady := false } := by decide
/-- V-LD-3. -/
theorem test_load : nextState
    (exec (.load {}) (startWith [0x1002, 0] [] 0x1000 [0xDD, 0xCC, 0xBB, 0xAA])) =
      some (startWith [0xAABB] [] 0x1000 [0xDD, 0xCC, 0xBB, 0xAA]) := by decide
/-- V-LD-10. -/
theorem test_load_misaligned_io : nextState (exec (.load { short := true }) (start [2, 0] [])) =
    some (raised 0x80000001 (start [0, 0] [])) := by decide
/-- V-JSR-1. -/
theorem test_jsr_call : nextState (exec (.jsr {}) { start [] [0x610] with ip := 0x604 }) =
    some { start [] [0x606, 0] with ip := 0x610 } := by decide
/-- V-JSR-12. -/
theorem test_jsr_return_odd : nextState (exec (.jsr { ret := true, short := true })
    { start [] [0x1235, 0] with ip := 0x620 }) =
      some { raised 0x80000001 (start [0x622, 0] []) with ip := 0x1234 } := by decide
/-- V-CMP-4. -/
theorem test_cmp_unsigned : nextState (exec (.cmp {}) (start [1, 0xFFFF] [])) =
    some { start [] [] with cr := ⟨false, true, false⟩ } := by decide
/-- V-CMP-6. -/
theorem test_cmp_keep : nextState (exec (.cmp { keep := true }) (start [3, 5] [])) =
    some { start [3, 5] [] with cr := ⟨true, false, false⟩ } := by decide
/-- R208. -/
theorem test_halt : nextState (exec (.halt {}) (start [] [])) =
    some { start [] [] with run := .halted } := by decide

/-! ## One step -/

/-- V-NOP-1: only `IP` moves. -/
theorem test_step_nop : nextState (step (startWith [] [] 0x600 [0x00, 0x07])) =
    some { startWith [] [] 0x600 [0x00, 0x07] with ip := 0x602 } := by decide
/-- V-DI-7: a skipped `Lit(SHORT)` moves past its immediate. -/
theorem test_step_skips_wide_lit : nextMeets
    (step { startWith [] [] 0x600 [0x01, 0x14, 5, 0, 0, 0] with cr := ⟨false, false, true⟩ })
    (fun s => s.ip == 0x606 && top s .P == 0) = true := by decide
/-- V-DI-10: an illegal opcode is fatal before the gate. -/
theorem test_step_illegal : nextMeets (step (startWith [] [] 0x600 [0x0B, 0x08]))
    (fun s => s.run == .fatal (.invalidOpcode 0x600 0x0B) && s.ip == 0x600) = true := by decide
/-- V-DI-12: entry with an odd vector. -/
theorem test_step_enters_interrupt : nextMeets
    (step { start [] [] with ip := 0x610, pending := true, sic := ⟨0x701, 5, 0⟩ })
    (fun s => s.ip == 0x702 && s.sic == ⟨0x701, 5, 0x610⟩ && !s.pending) = true := by decide
/-- V-LIT-7: the high half of an immediate faults and reads 0. -/
theorem test_step_lit_half_faults : nextMeets
    (step { startWith [] [] 0x1FFC [0x01, 0x04, 0x34, 0x12] with ip := 0x1FFC })
    (fun s => s.ip == 0x2002 && copy s .P 4 .wide == 0x1234 && s.sic.cause == 0x80000004) = true := by
  decide
/-- V-DI-15: the I/O window is fetched from. -/
theorem test_step_fetches_io : nextState (step { start [] [] with ip := 0 }) =
    some { start [] [] with ip := 2 } := by decide
/-- V-DI-16: the CORE holds and the device steps. -/
theorem test_step_device : nextState (step { start [] [] with outReady := false, outq := [0x41] }) =
    some { start [] [] with outputTrace := [0x41] } := by decide
/-- R282: a stopped machine with an interrupt pending and a byte waiting takes no cycle; the device steps. -/
theorem test_step_stopped_device :
    nextState (step (stopInput true { start [] [] with outReady := false, outq := [0x41], pending := true })) =
      some { start [] [] with outputTrace := [0x41], pending := true, stopped := true } := by decide
/-- R282: a stopped machine does not restart, whatever the input says later. -/
theorem test_step_stopped : step (stopInput false (stopInput true (start [] []))) = .fault .stopped :=
  rfl
/-- A table word stored where the next step fetches is run by it (V-LIT-2). -/
theorem test_withFetchWord : nextMeets (step (State.reset.withFetchWord 48 0xAABBCCDD0401))
    (fun s => s.ip == 0x606 && copy s .P 4 .wide == 0xAABBCCDD) = true := by decide

/-! ## The stack engine, reset and boot -/

/-- S-PEEK. -/
theorem test_copy_below_base : copy (start [0xCCDD, 0xAABB] []) .P 2 .wide = 0xCCDD0000 := by decide
/-- V-SE-3. -/
theorem test_pop_half_of_wide : (popValue .P .narrow (start [0xCCDD, 0xAABB] [])) =
    (0xAABB, start [0xCCDD] []) := by decide
/-- R32: the reset memory is in its canonical form. -/
theorem test_reset_memory : State.reset.mem.wf := by decide
/-- R270 with an empty image is the reset state. -/
theorem test_boot_empty : (boot Params.testMachine []).toOption = some State.reset := by decide
/-- R271: a program image lies at 0x600. -/
theorem test_boot_image : ((boot Params.testMachine [0x0A, 0x00]).toOption.map fun s => s.mem.bytes 0x600 2) =
    some [0x0A, 0x00] := by decide

/-! ## Witnesses: values that meet an obligation's hypotheses together, one for each clause -/

/-- Three slots on each stack. -/
def three : State := start [1, 2, 3] [0x610, 0x700, 0]

/-- Primary stack at depth `k`, slots zero. -/
def depth (k : Half) : State := start [] [] |>.setOff .P k

theorem witness_DecodeInvertsEncode : (Instr.lit {} 0xFFFF).wf = true ∧
    (Instr.lit { short := true } 0xFFFFFFFF).wf = true ∧ (Instr.halt { reserved := 3 }).wf = true := by
  decide
theorem witness_EncodeInvertsDecode :
    decode [0x01, 0x00, 0xFF, 0xFF, 0x0A] = .ok (.lit {} 0xFFFF, [0x0A]) := rfl
theorem witness_LengthFromFirstWord_lit :
    decode [0x01, 0x00, 0x34, 0x12] = .ok (.lit {} 0x1234, []) := rfl
theorem witness_LengthFromFirstWord_short : decode [0x01, 0x04, 0x78, 0x56, 0x34, 0x12] =
    .ok (.lit { short := true } 0x12345678, []) := rfl
theorem witness_LengthFromFirstWord_other :
    decode [0x00, 0x04, 0x34] = .ok (.nop { short := true }, [0x34]) := rfl
theorem witness_IllegalOpcodeBytesRefused : 0x0A < (0x0B : Byte).toNat := by decide

theorem witness_GuardedReadOutcome :
    0x1FFF % Width.narrow.bytes ≠ 0 ∧
    (0x2000 % Width.narrow.bytes = 0 ∧ three.params.memSize < 0x2000 + Width.narrow.bytes) ∧
    (0x1FFE % Width.narrow.bytes = 0 ∧ 0x1FFE + Width.narrow.bytes ≤ three.params.memSize) ∧
    (0x1FFC % Width.wide.bytes = 0 ∧ 0x1FFC + Width.wide.bytes ≤ three.params.memSize) := by decide
theorem witness_GuardedWriteOutcome : three.mem.wf ∧
    0x1FFE % Width.wide.bytes ≠ 0 ∧
    (0x2000 % Width.wide.bytes = 0 ∧ three.params.memSize < 0x2000 + Width.wide.bytes) ∧
    (0x1FFC % Width.wide.bytes = 0 ∧ 0x1FFC + Width.wide.bytes ≤ three.params.memSize) := by decide
theorem witness_MmuRoutesAddresses :
    ((0x3FF : Word).toNat ≤ 0x3FF ∧ (0x3FF : Word).toNat % Width.narrow.bytes ≠ 0) ∧
    ((0x3FE : Word).toNat ≤ 0x3FF ∧ (0x3FE : Word).toNat % Width.narrow.bytes = 0 ∧
      (0x3FE : Word).toNat ∉
        [0x000, 0x002, 0x004, 0x006, 0x00C, 0x100, 0x200, 0x204, 0x300, 0x304, 0x308]) ∧
    (0x400 ≤ (0x400 : Word).toNat ∧ (0x400 : Word).toNat ≤ three.params.memWinHi) ∧
    (0x400 ≤ (0x2000 : Word).toNat ∧ three.params.memWinHi < (0x2000 : Word).toNat) := by decide
theorem witness_StoreThenLoadReturnsValue : three.mem.wf ∧ InMemory three 0x1FFE .narrow ∧
    InMemory three 0x400 .wide ∧ (0xFFFF : Word).toNat < 0x10000 := by decide

theorem witness_PushSlotOutcome :
    ((depth 256).mem.wf ∧ 256 ≤ top (depth 256) .P) ∧
    ((depth 255).mem.wf ∧ top (depth 255) .P < 256 ∧
      (baseOf (depth 255) .P + top (depth 255) .P) % 2 ≠ 0) ∧
    (((depth 2).setBase .P 0x1FFE).mem.wf ∧ top ((depth 2).setBase .P 0x1FFE) .P < 256 ∧
      (baseOf ((depth 2).setBase .P 0x1FFE) .P + top ((depth 2).setBase .P 0x1FFE) .P) % 2 = 0 ∧
      ((depth 2).setBase .P 0x1FFE).params.memSize <
        baseOf ((depth 2).setBase .P 0x1FFE) .P + top ((depth 2).setBase .P 0x1FFE) .P + 2) ∧
    ((depth 254).mem.wf ∧ top (depth 254) .P < 256 ∧
      (baseOf (depth 254) .P + top (depth 254) .P) % 2 = 0 ∧
      baseOf (depth 254) .P + top (depth 254) .P + 2 ≤ (depth 254).params.memSize) := by decide
theorem witness_PopSlotOutcome :
    ((depth 1).mem.wf ∧ top (depth 1) .P < 2) ∧
    ((depth 3).mem.wf ∧ 2 ≤ top (depth 3) .P ∧ (baseOf (depth 3) .P + (top (depth 3) .P - 2)) % 2 ≠ 0) ∧
    (((depth 2).setBase .P 0x2000).mem.wf ∧ 2 ≤ top ((depth 2).setBase .P 0x2000) .P ∧
      (baseOf ((depth 2).setBase .P 0x2000) .P + (top ((depth 2).setBase .P 0x2000) .P - 2)) % 2 = 0 ∧
      ((depth 2).setBase .P 0x2000).params.memSize <
        baseOf ((depth 2).setBase .P 0x2000) .P + (top ((depth 2).setBase .P 0x2000) .P - 2) + 2) ∧
    ((depth 2).mem.wf ∧ 2 ≤ top (depth 2) .P ∧ (baseOf (depth 2) .P + (top (depth 2) .P - 2)) % 2 = 0 ∧
      baseOf (depth 2) .P + (top (depth 2) .P - 2) + 2 ≤ (depth 2).params.memSize) := by decide
theorem witness_PushThenPopReturnsValue : (depth 252).mem.wf ∧ top (depth 252) .P % 2 = 0 ∧
    top (depth 252) .P + Width.wide.bytes ≤ 256 ∧ (baseOf (depth 252) .P + top (depth 252) .P) % 2 = 0 ∧
    baseOf (depth 252) .P + top (depth 252) .P + Width.wide.bytes ≤ (depth 252).params.memSize := by decide
theorem witness_KeepPopPeeks : three.mem.wf ∧ StackSound .P three ∧ StackSound .R three ∧
    Width.wide.bytes ≤ top three .P ∧ ¬ Width.wide.bytes ≤ top (start [1] []) .P ∧
    StackSound .P (start [1] []) := by decide
theorem witness_WidePushAtLastSlotOverflows : (depth 254).mem.wf ∧ baseOf (depth 254) .P % 2 = 0 ∧
    baseOf (depth 254) .P + 256 ≤ (depth 254).params.memSize ∧ top (depth 254) .P = 254 := by decide
theorem witness_CopyIsWhatPopReturns : three.mem.wf ∧
    StackSound .P (three.setOff .P (BitVec.ofNat 16 256)) := by decide

theorem witness_LitPushesImmediate : (Instr.lit { short := true } 0x12345678).wf = true ∧
    (depth 252).mem.wf ∧ StackSound (selected { short := true }) (depth 252) ∧
    top (depth 252) (selected { short := true }) + (Flags.width { short := true }).bytes ≤ 256 := by decide
theorem witness_LitOnFullStackOverflows : 256 ≤ top (depth 256) (selected {}) := by decide
theorem witness_DupCopiesAcrossStacks : three.mem.wf ∧ StackSound (selected {}) three ∧
    StackSound (selected {}).other three ∧ StacksApart three ∧
    top three (selected {}).other + (Flags.width {}).bytes ≤ 256 ∧
    (Flags.width {}).bytes ≤ top three (selected {}) := by decide
theorem witness_DupOntoFullStackOverflows : (three.setOff .R 256).mem.wf ∧
    StackSound (selected {}) (three.setOff .R 256) ∧
    (Flags.width {}).bytes ≤ top (three.setOff .R 256) (selected {}) ∧
    256 ≤ top (three.setOff .R 256) (selected {}).other := by decide
theorem witness_OverExchangesTopTwo :
    three.mem.wf ∧ StackSound (selected {}) three ∧ StackSound (selected {}) (start [] []) := by decide
theorem witness_OverTwiceIsIdentity : three.mem.wf ∧ StackSound (selected {}) three ∧
    3 * (Flags.width {}).bytes ≤ top three (selected {}) := by decide
theorem witness_PushRepeatsTopWithKeep : three.mem.wf ∧ StackSound (selected { keep := true }) three ∧
    top three (selected { keep := true }) - (Flags.width { keep := true }).bytes +
      (Flags.width { keep := true }).bytes + (Flags.width { keep := true }).bytes ≤ 256 := by decide
theorem witness_DropDiscardsTop : three.mem.wf ∧ StackSound (selected {}) three := by decide

/-- The stack of V-STR-1. -/
def storing : State := start [0x1234, 0x1000, 0] []

theorem witness_StrWritesPoppedData : storing.mem.wf ∧ StackSound (selected {}) storing ∧
    StackSound (selected { keep := true }) storing := by decide
theorem witness_StrStoresToMemory : storing.mem.wf ∧ StackSound (selected {}) storing ∧
    (({} : Flags).keep = false) ∧
    InMemory storing (copy storing (selected {}) (top storing (selected {})) .wide) (Flags.width {}) := by
  decide
theorem witness_LoadPushesWhatMmuReads : storing.mem.wf ∧ StackSound (selected { keep := true }) storing ∧
    top storing (selected { keep := true }) - 4 + 4 + (Flags.width { keep := true }).bytes ≤ 256 := by
  decide
/-- The address 0x1000 of `storing` is above every slot it pops. -/
theorem witness_LoadReadsMemory : storing.mem.wf ∧ StackSound (selected {}) storing ∧
    (({} : Flags).keep = false) ∧
    InMemory storing (copy storing (selected {}) (top storing (selected {})) .wide) (Flags.width {}) ∧
    ∀ x, (copy storing (selected {}) (top storing (selected {})) .wide).toNat ≤ x →
      x < (copy storing (selected {}) (top storing (selected {})) .wide).toNat + (Flags.width {}).bytes →
      ¬ InSlots storing (selected {}) (top storing (selected {}) - 4) (top storing (selected {})) x := by
  refine ⟨by decide, by decide, by decide, by decide, fun x h _ hx => ?_⟩
  have h1 : 0x1000 ≤ x := h
  have h2 : x < 0x406 := hx.2
  omega

theorem witness_JsrCallsTarget : (({} : Flags).ret = false) ∧ three.mem.wf ∧ StackSound .R three ∧
    top three .R - 2 + 4 ≤ 256 ∧ top three .R - 2 + 2 + 4 ≤ 256 := by decide
theorem witness_JsrReturnsToTarget : three.mem.wf ∧ StackSound .P three ∧ StackSound .R three ∧
    StacksApart three ∧ top three .P + 4 ≤ 256 := by decide
theorem witness_JsrReturnOnFullStackOverflows : 256 ≤ top (depth 256) .P := by decide

theorem witness_JsrCallOnFullStackOverflows : (three.setOff .R 256).mem.wf ∧
    StackSound .R (three.setOff .R 256) ∧ top (three.setOff .R 256) .R = 256 := by decide
theorem witness_KeepFormsOverflowFullStack : (depth 256).mem.wf ∧
    StackSound (selected { keep := true }) (depth 256) ∧
    top (depth 256) (selected { keep := true }) = 256 ∧
    (three.setOff .R 256).mem.wf ∧ StackSound .R (three.setOff .R 256) ∧
    top (three.setOff .R 256) .R = 256 := by decide

/-- A call about to be made, and the state it leaves (V-JSR-1). -/
def calling : State := { start [] [0x610] with ip := 0x604 }
def called : State := { start [] [0x606, 0] with ip := 0x610 }

theorem witness_CallThenReturnComesBack : calling.mem.wf ∧ StackSound .R calling ∧ 2 ≤ top calling .R ∧
    calling.ip.toNat % 2 = 0 ∧ (copy calling .R (top calling .R) .narrow).getLsbD 0 = false ∧
    (top calling .R - 2) + 4 ≤ 256 ∧ nextState (exec (.jsr {}) calling) = some called ∧
    called.mem.wf ∧ StackSound .P called ∧ StackSound .R called ∧ StacksApart called ∧
    top called .P + 4 ≤ 256 := by decide
theorem witness_ReturnFromInterruptSequence : three.mem.wf ∧ StackSound .P three ∧ StackSound .R three ∧
    StacksApart three ∧ top three .P + 4 ≤ 256 ∧ top three .R + 4 ≤ 256 := by decide
theorem witness_CmpWritesCondition : three.mem.wf ∧ StackSound (selected {}) three ∧
    StackSound (selected { keep := true }) three := by decide
theorem witness_CmpLeavesExactlyOneBit : three.run = .running ∧
    nextMeets (exec (.cmp {}) three) (fun u => u.run == .running) = true := by decide

/-- An interrupt pending with a vector (V-DI-11). -/
def interrupted : State := { start [] [] with ip := 0x610, pending := true, sic := ⟨0x700, 5, 0⟩ }

theorem witness_PendingInterruptEntersFirst : Ready interrupted ∧ interrupted.pending = true := by decide
theorem witness_SetIpClearsBitZero :
    (0xFFFFFFFE : Word).toNat % 2 = 0 ∧ (0xFFFFFFFF : Word).toNat % 2 = 1 := by decide

theorem witness_GateMatchesCondition :
    gate (Instr.jsr { ifEqual := true }).flags three.cr = false ∧
    gate (Instr.jsr { ifEqual := true, ifLess := true }).flags ⟨false, false, true⟩ = true := by decide
theorem witness_EveryInstructionAnswersNext : interrupted.pending = true := by decide

/-- The conditions of `StepRunsDecodedInstruction` for the bytes at 0x600 of `s`. -/
def fetches (i : Instr) (s : State) : Bool :=
  decide (Ready s) && !s.pending && decide s.params.valid && decide (s.ip.toNat % 2 = 0) &&
    decide (0x400 ≤ s.ip.toNat) && decide (s.ip.toNat + i.length ≤ s.params.memSize) &&
    decoded (s.mem.bytes s.ip.toNat i.length) == some (i, [])

theorem witness_StepRuns_skipped : fetches (.halt { ifGreater := true })
    (startWith [] [] 0x600 [0x0A, 0x10]) = true ∧
    gate { ifGreater := true } (startWith [] [] 0x600 [0x0A, 0x10]).cr = false := by decide
theorem witness_StepRuns_stopped : fetches (.halt {}) (startWith [] [] 0x600 [0x0A, 0x00]) = true ∧
    gate {} State.reset.cr = true ∧
    nextMeets (exec (.halt {}) (startWith [] [] 0x600 [0x0A, 0x00])) (fun u => u.run == .halted) =
      true := by decide
theorem witness_StepRuns_jsr : fetches (.jsr {}) (startWith [] [0x610] 0x600 [0x08, 0x00]) = true ∧
    nextMeets (exec (.jsr {}) (startWith [] [0x610] 0x600 [0x08, 0x00])) (fun u => u.run == .running) =
      true := by decide
theorem witness_StepRuns_advances : fetches (.lit { short := true } 0x12345678)
    { startWith [] [] 0x1FFA [0x01, 0x04, 0x78, 0x56, 0x34, 0x12] with ip := 0x1FFA } = true := by decide

theorem witness_IllegalOpcodeStopsMachine :
    Ready (startWith [] [] 0x600 [0x0B, 0x08]) ∧ (startWith [] [] 0x600 [0x0B, 0x08]).pending = false ∧
    InMemory (startWith [] [] 0x600 [0x0B, 0x08]) 0x600 .narrow ∧
    0x0A < ((startWith [] [] 0x600 [0x0B, 0x08]).mem.read 0x600).toNat := by decide
/-- A machine whose memory window is longer than its memory (P2). -/
def windowed : State := { three with ip := 0x2000, params := ⟨0x2000, 0xFFFFFFFF⟩ }

theorem witness_FaultingFetchRunsAsNop :
    (Ready three ∧ three.pending = false) ∧ (Ready windowed ∧ windowed.pending = false) ∧
    ((0x3FE : Word).toNat % 2 = 0 ∧ (0x3FE : Word).toNat ≤ 0x3FF ∧ (0x3FE : Word).toNat ∉
      [0x000, 0x002, 0x004, 0x006, 0x00C, 0x100, 0x200, 0x204, 0x300, 0x304, 0x308]) ∧
    (windowed.ip.toNat % 2 = 0 ∧ 0x400 ≤ windowed.ip.toNat ∧
      windowed.ip.toNat ≤ windowed.params.memWinHi ∧
      windowed.params.memSize < windowed.ip.toNat + 2) ∧
    ((0xFFFFFFFE : Word).toNat % 2 = 0 ∧ 0x400 ≤ (0xFFFFFFFE : Word).toNat ∧
      three.params.memWinHi < (0xFFFFFFFE : Word).toNat) := by decide
theorem witness_HeldOrStopped_device :
    ({ three with outReady := false, outq := [0x41] } : State).outReady = false ∧
    ({ three with run := .halted, outq := [0x41] } : State).run ≠ .running ∧
    (stopInput true { three with outReady := false, outq := [0x41] }).stopped = true := by decide
theorem witness_HeldOrStopped_none :
    ({ three with run := .halted } : State).run = .halted ∧ ({ three with run := .halted } : State).outq = [] ∧
    ({ three with run := .fatal (.stackOverflow .P 0) } : State).run = .fatal (.stackOverflow .P 0) ∧
    ((stopInput true three).run = .running ∧ (stopInput true three).stopped = true ∧
      (stopInput true three).outq = []) ∧
    ({ three with outReady := false } : State).run = .running ∧
    ({ three with outReady := false } : State).stopped = false ∧
    ({ three with outReady := false } : State).outReady = false ∧
    ({ three with outReady := false } : State).outq = [] := by decide

theorem witness_BootLoadsOrRefuses :
    (0x5FF < 0x600 ∧ 2 ^ 32 < 2 ^ 32 + 1) ∧ (0x600 ≤ 2 ^ 32 ∧ [(0 : Byte)].length % 2 = 1) ∧
    ([(0 : Byte), 0].length % 2 = 0 ∧ 0x600 < 0x600 + [(0 : Byte), 0].length) ∧
    ([(0 : Byte), 0].length % 2 = 0 ∧ 0x600 + [(0 : Byte), 0].length ≤ 0x602) := by decide

/-- A running machine on its way, not the reset state, in the invariant. -/
theorem witness_invariant : Invariant three := by
  constructor <;> decide
theorem witness_BootMeetsInvariant : Params.testMachine.valid ∧
    ∃ s, boot Params.testMachine [0x0A, 0x00] = .ok s := ⟨by decide, _, rfl⟩
theorem witness_EveryStepKeepsInvariant : Invariant three ∧ ∃ u, step three = .next u :=
  ⟨witness_invariant, _, rfl⟩
theorem witness_RunningMachineAlwaysSteps : Invariant three ∧ three.run = .running ∧
    three.stopped = false :=
  ⟨witness_invariant, rfl, rfl⟩
theorem witness_OnlyCmpWritesCondition : ∃ u, exec (.push {}) three = .next u := ⟨_, rfl⟩
theorem witness_OnlyJsrSetsIp : ∃ u, exec (.cmp {}) three = .next u := ⟨_, rfl⟩
theorem witness_OnlyStrReachesControlRegisters : ∃ u, exec (.load {}) three = .next u := ⟨_, rfl⟩
theorem witness_OutputIsEmittedInOrder_core : ∃ u, step three = .next u := ⟨_, rfl⟩
theorem witness_OutputIsEmittedInOrder_device :
    ∃ u, step { three with outReady := false, outq := [0x41] } = .next u := ⟨_, rfl⟩
/-- A `Str` to `OUT` about to run (V-STR-9). -/
def emits : State := startWith [0x0141, 0x100, 0] [] 0x600 [0x04, 0x00]
/-- The state after it: its byte waits. -/
def emitted : State :=
  { startWith [] [] 0x600 [0x04, 0x00] with ip := 0x602, outq := [0x41], outReady := false }
/-- The run of two steps from `emits`: the CORE's, then the device's. -/
def emission : Nat → State
  | 0 => emits
  | 1 => emitted
  | _ => { emitted with outq := [], outputTrace := [0x41], outReady := true }
theorem witness_OutputIsEmittedInOrder_run :
    ∀ k, k < 2 → step (emission k) = .next (emission (k + 1))
  | 0, _ => rfl
  | 1, _ => rfl
theorem witness_OutputDoesNotAffectCore :
    forgetOutput three = forgetOutput { three with outputTrace := [0x41] } ∧ ∃ u, cycle three = .next u :=
  ⟨rfl, _, rfl⟩

end Sys2Proof.Tests
end

section
/-!
PROOFS. What a step makes of the output (20_memory.md R83; 60_exceptions.md R240, R243). A CORE cycle adds
bytes behind the queue and leaves the trace (`cycle_outputGrows`); the device's step moves the oldest byte to
the trace (`deviceStep_outputEmits`). `step_output` joins the two, and `run_output` is the induction over a run.
-/

namespace Sys2Proof.Machine

/-! ## The two things that happen to the output -/

/-- The trace stays, and what is written joins behind the bytes that wait. -/
structure OutputGrows (s u : State) : Prop where
  trace : u.outputTrace = s.outputTrace
  queue : s.outq <+: u.outq

/-- The byte that waited longest joins the trace. -/
def OutputEmits (s u : State) : Prop :=
  ∃ b, s.outq = b :: u.outq ∧ u.outputTrace = s.outputTrace ++ [b]

/-- The bytes a step from `s` to `u` adds to the queue. -/
def writtenBytes (s u : State) : List Byte := u.outq.drop s.outq.length

theorem OutputGrows.refl (s : State) : OutputGrows s s := ⟨rfl, List.prefix_rfl⟩

theorem OutputGrows.trans {s u v : State} (h : OutputGrows s u) (k : OutputGrows u v) :
    OutputGrows s v :=
  ⟨k.trace.trans h.trace, h.queue.trans k.queue⟩

theorem OutputGrows.of_eq {s u : State} (ht : u.outputTrace = s.outputTrace) (hq : u.outq = s.outq) :
    OutputGrows s u :=
  ⟨ht, hq ▸ List.prefix_rfl⟩

theorem OutputGrows.outq_eq {s u : State} (h : OutputGrows s u) :
    u.outq = s.outq ++ writtenBytes s u :=
  List.prefix_iff_eq_append.1 h.queue |>.symm

theorem OutputEmits.writtenBytes_eq {s u : State} (h : OutputEmits s u) : writtenBytes s u = [] := by
  obtain ⟨b, hq, _⟩ := h
  simp [writtenBytes, hq]

/-- Either way the trace with the waiting bytes behind it grows by what was written. -/
theorem OutputGrows.trace_append_outq {s u : State} (h : OutputGrows s u) :
    u.outputTrace ++ u.outq = s.outputTrace ++ s.outq ++ writtenBytes s u := by
  rw [h.trace, h.outq_eq, List.append_assoc]

theorem OutputEmits.trace_append_outq {s u : State} (h : OutputEmits s u) :
    u.outputTrace ++ u.outq = s.outputTrace ++ s.outq ++ writtenBytes s u := by
  rw [h.writtenBytes_eq]
  obtain ⟨b, hq, ht⟩ := h
  simp [hq, ht]

/-! ## A CORE cycle -/

theorem EngineFrame.outputGrows {s u : State} (h : EngineFrame s u) : OutputGrows s u :=
  .of_eq h.outputTrace h.outq

theorem WriteFrame.outputGrows {s u : State} (h : WriteFrame s u) : OutputGrows s u := by
  rcases h.output with ⟨hq, _⟩ | ⟨b, hq, _⟩
  · exact .of_eq h.outputTrace hq
  · exact ⟨h.outputTrace, [b], hq.symm⟩

theorem JumpFrame.outputGrows {s u : State} (h : JumpFrame s u) : OutputGrows s u :=
  .of_eq h.outputTrace h.outq

theorem ExecDoes.outputGrows {i : Instr} {s u : State} (h : ExecDoes i s u) : OutputGrows s u := by
  cases h with
  | engine hu => exact hu.outputGrows
  | halt f hi hu => exact .of_eq (by rw [hu]) (by rw [hu])
  | store f v hi hv hr hu => exact hv.outputGrows.trans hu.outputGrows
  | condition f v a b hi hv hr hu => exact hv.outputGrows.trans (.of_eq (by rw [hu]) (by rw [hu]))
  | jump f v a hi hv hr hu => exact hv.outputGrows.trans (hu ▸ (setIp_frame a v).outputGrows)

theorem advance_outputGrows (i : Instr) (a : Word) (s : State) : OutputGrows s (advance i a s) :=
  .of_eq (advance_outputTrace i a s) (advance_outq i a s)

/-- The wrapper advances the state the instruction leaves, or takes it as it is (R157, R159). -/
theorem afterExec_next {i : Instr} {a : Word} {o : Host.Outcome State Fault Refusal} {u : State}
    (h : afterExec i a o = .next u) : ∃ v, o = .next v ∧ (u = v ∨ u = advance i a v) := by
  cases o with
  | next v =>
    refine ⟨v, rfl, ?_⟩
    simp only [afterExec] at h
    split at h <;> cases h
    · exact .inr rfl
    · exact .inl rfl
  | fault r => cases h
  | refused r => cases h

theorem dispatch_outputGrows {i : Instr} {a : Word} {s u : State} (h : dispatch i a s = .next u) :
    OutputGrows s u := by
  unfold dispatch at h
  split at h
  · obtain ⟨v, hv, hu⟩ := afterExec_next h
    have himm := (withImmediate_frame i a s).1.outputGrows
    have hexec := himm.trans (exec_next hv).outputGrows
    rcases hu with rfl | rfl
    · exact hexec
    · exact hexec.trans (advance_outputGrows i a v)
  · cases h
    exact advance_outputGrows i a s

theorem fetchAndRun_outputGrows {s u : State} (h : fetchAndRun s = .next u) : OutputGrows s u := by
  have hfetch := (fetchRead16_frame s.ip s).1.outputGrows
  simp only [fetchAndRun] at h
  split at h
  · cases h
    exact hfetch.trans (fatalStop_frame _ _).outputGrows
  · exact hfetch.trans (dispatch_outputGrows h)

theorem interruptEntry_outputGrows (s : State) : OutputGrows s (interruptEntry s) := by
  unfold interruptEntry
  split
  · exact .of_eq (takeInterrupt_outputTrace s) (takeInterrupt_outq s)
  · exact .refl s

theorem cycle_outputGrows {s u : State} (h : cycle s = .next u) : OutputGrows s u :=
  (interruptEntry_outputGrows s).trans (fetchAndRun_outputGrows h)

/-! ## The device's step, and one step of either agent -/

theorem deviceStep_outputEmits {s u : State} (h : deviceStep s = some u) : OutputEmits s u := by
  unfold deviceStep at h
  split at h <;> cases h
  next b q hq => exact ⟨b, hq, rfl⟩

theorem deviceOr_outputEmits {r : Fault} {s u : State} (h : deviceOr r s = .next u) :
    OutputEmits s u := by
  unfold deviceOr at h
  split at h <;> cases h
  next hd => exact deviceStep_outputEmits hd

theorem step_output {s u : State} (h : step s = .next u) : OutputGrows s u ∨ OutputEmits s u := by
  unfold step agentStep at h
  split at h
  · split at h
    · exact .inr (deviceOr_outputEmits h)
    · split at h
      · exact .inl (cycle_outputGrows h)
      · exact .inr (deviceOr_outputEmits h)
  · exact .inr (deviceOr_outputEmits h)
  · exact .inr (deviceOr_outputEmits h)

theorem step_trace_append_outq {s u : State} (h : step s = .next u) :
    u.outputTrace ++ u.outq = s.outputTrace ++ s.outq ++ writtenBytes s u :=
  (step_output h).elim OutputGrows.trace_append_outq OutputEmits.trace_append_outq

/-! ## A run -/

theorem run_output (r : Nat → State) (n : Nat) (h : ∀ k, k < n → step (r k) = .next (r (k + 1))) :
    (r n).outputTrace ++ (r n).outq = (r 0).outputTrace ++ (r 0).outq ++
      (List.range n).flatMap fun k => writtenBytes (r k) (r (k + 1)) := by
  induction n with
  | zero => simp
  | succ n ih =>
    have hinit := ih fun k hk => h k (Nat.lt_succ_of_lt hk)
    have hlast := step_trace_append_outq (h n (Nat.lt_succ_self n))
    rw [hlast, hinit, List.range_succ, List.flatMap_append, List.flatMap_singleton, List.append_assoc]

/-- Settles O59: each step by `step_output`, each run by `run_output`, where step `k` writes the bytes by which
the queue outgrows the one before it. -/
theorem outputIsEmittedInOrder : Obligations.OutputIsEmittedInOrder := by
  refine ⟨fun s u h => ?step, fun n r h =>
    ⟨fun k => writtenBytes (r k) (r (k + 1)), fun k hk => ?run, run_output r n h⟩⟩
  case step => exact (step_output h).imp_left fun hg => ⟨hg.trace, _, hg.outq_eq⟩
  case run =>
    exact (step_output (h k hk)).imp (fun hg => ⟨hg.trace, hg.outq_eq⟩)
      fun he : OutputEmits _ _ => ⟨he.writtenBytes_eq, he⟩

end Sys2Proof.Machine
end

section
/-!
PROOFS. What `gen_int` writes (60_exceptions.md R222): the cause register and the pending latch only
(`genInt_eq_raised`), and in the cause register the exception flag over the low 31 bits of the cause
(`genInt_cause_bit31`, `genInt_cause_lowBit`), read off the two masks bit by bit.
-/

namespace Sys2Proof.Machine

/-! ## The two masks of `gen_int` -/

theorem exceptionMask_bit31 (e : Bool) : (if e then 0x80000000 else 0 : Word).getLsbD 31 = e := by
  cases e <;> decide

theorem exceptionMask_lowBit (e : Bool) {k : Nat} (hk : k < 31) :
    (if e then 0x80000000 else 0 : Word).getLsbD k = false := by
  have hflag : (0x80000000 : Word) = BitVec.twoPow 32 31 := by decide
  cases e with
  | false => simp
  | true => simp [hflag, BitVec.getLsbD_twoPow, Nat.ne_of_gt hk]

theorem causeMask_bit31 : (0x7FFFFFFF : Word).getLsbD 31 = false := by decide

theorem causeMask_lowBit {k : Nat} (hk : k < 31) : (0x7FFFFFFF : Word).getLsbD k = true := by
  have hmask : (0x7FFFFFFF : Word) = (BitVec.allOnes 31).setWidth 32 := by decide
  rw [hmask, BitVec.getLsbD_setWidth, BitVec.getLsbD_allOnes]
  simp [hk, Nat.lt_succ_of_lt hk]

/-! ## What `gen_int` writes -/

theorem genInt_cause (c : Word) (e : Bool) (s : State) :
    (genInt c e s).sic.cause = (if e then 0x80000000 else 0) ||| (c &&& 0x7FFFFFFF) := rfl

theorem genInt_cause_bit31 (c : Word) (e : Bool) (s : State) :
    (genInt c e s).sic.cause.getLsbD 31 = e := by
  rw [genInt_cause, BitVec.getLsbD_or, BitVec.getLsbD_and, exceptionMask_bit31, causeMask_bit31,
    Bool.and_false, Bool.or_false]

theorem genInt_cause_lowBit (c : Word) (e : Bool) (s : State) {k : Nat} (hk : k < 31) :
    (genInt c e s).sic.cause.getLsbD k = c.getLsbD k := by
  rw [genInt_cause, BitVec.getLsbD_or, BitVec.getLsbD_and, exceptionMask_lowBit e hk, causeMask_lowBit hk,
    Bool.and_true, Bool.false_or]

/-- The frame of `gen_int`: its cause register and the pending latch account for all it changes. -/
theorem genInt_eq_raised (c : Word) (e : Bool) (s : State) :
    genInt c e s = raised (genInt c e s).sic.cause s := rfl

/-- Settles O41: the cause register's bits by `genInt_cause_bit31` and `genInt_cause_lowBit`, the frame by
`genInt_eq_raised`; the two raises are calls of `gen_int` by definition. -/
theorem genIntSetsCauseAndPending : Obligations.GenIntSetsCauseAndPending := by
  refine ⟨fun c e s => ⟨(genInt c e s).sic.cause, ?frame, ?flag, ?code⟩, ?fault, ?software⟩
  case frame => exact genInt_eq_raised c e s
  case flag => exact genInt_cause_bit31 c e s
  case code => exact fun _ hk => genInt_cause_lowBit c e s hk
  case fault => exact fun _ _ => rfl
  case software => exact fun _ _ => rfl

end Sys2Proof.Machine
end

section
/-!
PROOFS. The encoding (30_encoding.md R100 to R109). `Decodes` says once which bytes decode to what, in the
three forms an instruction has: a word alone, a `Lit` with one half, a `Lit` with two. `decode_eq_ok_iff` ties
it to the decoder; `Decodes.encode_of_wf` and `Decodes.encode_append` are the two halves of the round trip.
-/

namespace Sys2Proof

/-! ## The bytes of a half and of a word -/

theorem bytesOfHalf_halfOfBytes (lo hi : Byte) : bytesOfHalf (halfOfBytes lo hi) = [lo, hi] := by
  simp [bytesOfHalf]

/-- The first word of an encoding is the opcode byte, then the flag byte (R100, R120). -/
theorem encode_eq (i : Instr) :
    encode i = i.opcodeByte :: i.flags.toByte :: i.immHalves.flatMap bytesOfHalf := by
  have hword : (i.flags.toByte ++ i.opcodeByte : Half) = halfOfBytes i.opcodeByte i.flags.toByte := rfl
  rw [encode, encodeWords, List.flatMap_cons, hword, bytesOfHalf_halfOfBytes]
  rfl

theorem wordOfHalves_zero_toNat (h : Half) : (wordOfHalves h 0).toNat = h.toNat := by
  rw [wordOfHalves, Machine.toNat_append_half]
  simp

/-- A word below 2^16 is its low half. -/
theorem wordOfHalves_of_lt {v : Word} (h : v.toNat < 2 ^ 16) : wordOfHalves (v.extractLsb' 0 16) 0 = v := by
  apply BitVec.eq_of_toNat_eq
  rw [wordOfHalves_zero_toNat, BitVec.extractLsb'_toNat]
  simpa using Nat.mod_eq_of_lt h

theorem Flags.ofByte_short (b : Byte) : (Flags.ofByte b).short = b.getLsbD 2 := rfl

theorem encode_lit {f : Flags} (imm : Word) (h : f.short = false) :
    encode (.lit f imm) = 1 :: f.toByte :: bytesOfHalf (imm.extractLsb' 0 16) := by
  rw [encode_eq, Instr.immHalves, h]
  rfl

theorem encode_litShort {f : Flags} (imm : Word) (h : f.short = true) :
    encode (.lit f imm) =
      1 :: f.toByte :: (bytesOfHalf (imm.extractLsb' 0 16) ++ bytesOfHalf (imm.extractLsb' 16 16)) := by
  rw [encode_eq, Instr.immHalves, h]
  rfl

theorem Instr.opcodeByte_le (i : Instr) : i.opcodeByte.toNat ≤ 0x0A := by
  cases i <;> simp [Instr.opcodeByte]

/-! ## Instructions without an immediate -/

theorem Instr.immHalves_eq_nil {i : Instr} (h : ∀ f imm, i ≠ .lit f imm) : i.immHalves = [] := by
  cases i with
  | lit f imm => exact absurd rfl (h f imm)
  | _ => rfl

theorem Instr.length_eq_two {i : Instr} (h : ∀ f imm, i ≠ .lit f imm) : i.length = 2 := by
  cases i with
  | lit f imm => exact absurd rfl (h f imm)
  | _ => rfl

theorem Instr.wf_of_not_lit {i : Instr} (h : ∀ f imm, i ≠ .lit f imm) : i.wf = true := by
  cases i with
  | lit f imm => exact absurd rfl (h f imm)
  | _ => rfl

theorem Instr.ofOpcode_opcodeByte {i : Instr} (h : ∀ f imm, i ≠ .lit f imm) :
    Instr.ofOpcode i.opcodeByte i.flags 0 = some i := by
  cases i with
  | lit f imm => exact absurd rfl (h f imm)
  | _ => rfl

/-- The opcode map, inverted at an instruction other than `Lit`. -/
theorem Instr.ofOpcode_eq_some {op : Byte} {f : Flags} {i : Instr} (h : Instr.ofOpcode op f 0 = some i)
    (hlit : ∀ f imm, i ≠ .lit f imm) : op ≠ 1 ∧ i.flags = f ∧ i.opcodeByte = op := by
  rcases Instr.ofOpcode_cases op f with ⟨-, hnone⟩ | ⟨-, hone⟩ | ⟨hne, j, hsome, -, hflags, hbyte⟩
  · rw [hnone] at h; cases h
  · rw [hone] at h
    cases h
    exact absurd rfl (hlit f 0)
  · rw [hsome] at h
    cases h
    exact ⟨hne, hflags, hbyte⟩

/-- Above 0x0A the opcode map has no instruction (R106). -/
theorem Instr.ofOpcode_eq_none {op : Byte} (f : Flags) (h : 0x0A < op.toNat) : Instr.ofOpcode op f 0 = none := by
  rcases Instr.ofOpcode_cases op f with ⟨-, hnone⟩ | ⟨rfl, -⟩ | ⟨-, j, -, -, -, hbyte⟩
  · exact hnone
  · exact absurd h (by decide)
  · exact absurd (hbyte ▸ j.opcodeByte_le) (by omega)

/-! ## What decodes -/

/-- The bytes `bs` are one instruction `i` and `rest` after it: a word with no immediate, or the word of a
`Lit` with the one or two halves that its flag byte tells (R100, R101, R108). -/
inductive Decodes : List Byte → Instr → List Byte → Prop where
  | word (op fb : Byte) (i : Instr) (rest : List Byte)
      (hop : Instr.ofOpcode op (Flags.ofByte fb) 0 = some i) (hlit : ∀ f imm, i ≠ .lit f imm) :
      Decodes (op :: fb :: rest) i rest
  | lit (fb b0 b1 : Byte) (rest : List Byte) (hshort : (Flags.ofByte fb).short = false) :
      Decodes (1 :: fb :: b0 :: b1 :: rest)
        (.lit (Flags.ofByte fb) (wordOfHalves (halfOfBytes b0 b1) 0)) rest
  | litShort (fb b0 b1 b2 b3 : Byte) (rest : List Byte) (hshort : (Flags.ofByte fb).short = true) :
      Decodes (1 :: fb :: b0 :: b1 :: b2 :: b3 :: rest)
        (.lit (Flags.ofByte fb) (wordOfHalves (halfOfBytes b0 b1) (halfOfBytes b2 b3))) rest

theorem decode_of_ofOpcode_none {op fb : Byte} (rest : List Byte)
    (h : Instr.ofOpcode op (Flags.ofByte fb) 0 = none) :
    decode (op :: fb :: rest) = .error (.illegalOpcode op) := by
  simp only [decode, h]

theorem decode_of_ofOpcode_some {op fb : Byte} {i : Instr} (rest : List Byte)
    (h : Instr.ofOpcode op (Flags.ofByte fb) 0 = some i) (hlit : ∀ f imm, i ≠ .lit f imm) :
    decode (op :: fb :: rest) = .ok (i, rest) := by
  simp only [decode, h]

/-- The opcode byte of `Lit` (R105). -/
theorem Instr.ofOpcode_one (f : Flags) : Instr.ofOpcode 1 f 0 = some (.lit f 0) := rfl

theorem Decodes.decode {bs : List Byte} {i : Instr} {rest : List Byte} (h : Decodes bs i rest) :
    decode bs = .ok (i, rest) := by
  cases h with
  | word op fb i rest hop hlit => exact decode_of_ofOpcode_some rest hop hlit
  | lit fb b0 b1 rest hshort =>
    simp only [Sys2Proof.decode, Instr.ofOpcode_one, hshort, Bool.false_eq_true, if_false]
  | litShort fb b0 b1 b2 b3 rest hshort =>
    simp only [Sys2Proof.decode, Instr.ofOpcode_one, hshort, if_true]

/-- The bytes after the word of a `Lit` are its immediate, as long as bit 2 of the flag byte tells (R108). -/
theorem decodes_of_decode_one {fb : Byte} {bs : List Byte} {i : Instr} {rest : List Byte}
    (h : decode (1 :: fb :: bs) = .ok (i, rest)) : Decodes (1 :: fb :: bs) i rest := by
  simp only [decode, Instr.ofOpcode_one] at h
  split at h
  · next hshort =>
    split at h <;> cases h
    exact .litShort fb _ _ _ _ rest hshort
  · next hshort =>
    split at h <;> cases h
    exact .lit fb _ _ rest (by simpa using hshort)

/-- The decoder answers an instruction exactly on the three forms of `Decodes`. -/
theorem decode_eq_ok_iff {bs : List Byte} {i : Instr} {rest : List Byte} :
    decode bs = .ok (i, rest) ↔ Decodes bs i rest := by
  refine ⟨fun h => ?_, Decodes.decode⟩
  match bs with
  | [] => cases h
  | [_] => cases h
  | op :: fb :: bs =>
    rcases Instr.ofOpcode_cases op (Flags.ofByte fb) with
      ⟨-, hnone⟩ | ⟨rfl, -⟩ | ⟨-, j, hsome, hlit, -, -⟩
    · rw [decode_of_ofOpcode_none bs hnone] at h
      cases h
    · exact decodes_of_decode_one h
    · rw [decode_of_ofOpcode_some bs hsome hlit] at h
      cases h
      exact .word op fb i _ hsome hlit

/-! ## The round trip -/

/-- The encoding of a well-formed `Lit` decodes to it. -/
theorem Decodes.encode_of_immFits {f : Flags} {imm : Word} (h : immFits f imm = true) (rest : List Byte) :
    Decodes (encode (.lit f imm) ++ rest) (.lit f imm) rest := by
  cases hs : f.short with
  | false =>
    have hlow : imm.toNat < 2 ^ 16 := by simpa [immFits, hs] using h
    have himm := wordOfHalves_of_lt hlow
    rw [← halfOfBytes_split (imm.extractLsb' 0 16)] at himm
    have hd := Decodes.lit f.toByte ((imm.extractLsb' 0 16).extractLsb' 0 8)
      ((imm.extractLsb' 0 16).extractLsb' 8 8) rest (by rw [Flags.ofByte_toByte, hs])
    rw [Flags.ofByte_toByte, himm] at hd
    rw [encode_lit imm hs]
    exact hd
  | true =>
    have himm := wordOfHalves_split imm
    rw [← halfOfBytes_split (imm.extractLsb' 0 16), ← halfOfBytes_split (imm.extractLsb' 16 16)] at himm
    have hd := Decodes.litShort f.toByte ((imm.extractLsb' 0 16).extractLsb' 0 8)
      ((imm.extractLsb' 0 16).extractLsb' 8 8) ((imm.extractLsb' 16 16).extractLsb' 0 8)
      ((imm.extractLsb' 16 16).extractLsb' 8 8) rest (by rw [Flags.ofByte_toByte, hs])
    rw [Flags.ofByte_toByte, himm] at hd
    rw [encode_litShort imm hs]
    exact hd

theorem Decodes.encode_of_wf {i : Instr} (h : i.wf = true) (rest : List Byte) :
    Decodes (encode i ++ rest) i rest := by
  by_cases hlit : ∃ f imm, i = .lit f imm
  · obtain ⟨f, imm, rfl⟩ := hlit
    exact .encode_of_immFits h rest
  · have hlit : ∀ f imm, i ≠ .lit f imm := fun f imm hi => hlit ⟨f, imm, hi⟩
    rw [encode_eq, Instr.immHalves_eq_nil hlit]
    exact .word _ _ i rest (by rw [Flags.ofByte_toByte, Instr.ofOpcode_opcodeByte hlit]) hlit

theorem Decodes.wf {bs : List Byte} {i : Instr} {rest : List Byte} (h : Decodes bs i rest) :
    i.wf = true := by
  cases h with
  | word op fb i rest hop hlit => exact Instr.wf_of_not_lit hlit
  | lit fb b0 b1 rest hshort =>
    simp only [Instr.wf, immFits, Bool.or_eq_true, decide_eq_true_eq, wordOfHalves_zero_toNat]
    exact .inr (halfOfBytes b0 b1).isLt
  | litShort fb b0 b1 b2 b3 rest hshort => simp [Instr.wf, immFits, hshort]

theorem Decodes.encode_append {bs : List Byte} {i : Instr} {rest : List Byte} (h : Decodes bs i rest) :
    encode i ++ rest = bs := by
  cases h with
  | word op fb i rest hop hlit =>
    obtain ⟨-, hflags, hbyte⟩ := Instr.ofOpcode_eq_some hop hlit
    rw [encode_eq, Instr.immHalves_eq_nil hlit, hflags, hbyte, Flags.toByte_ofByte]
    rfl
  | lit fb b0 b1 rest hshort =>
    rw [encode_lit _ hshort, wordOfHalves_lo, bytesOfHalf_halfOfBytes, Flags.toByte_ofByte]
    rfl
  | litShort fb b0 b1 b2 b3 rest hshort =>
    rw [encode_litShort _ hshort, wordOfHalves_lo, wordOfHalves_hi, bytesOfHalf_halfOfBytes,
      bytesOfHalf_halfOfBytes, Flags.toByte_ofByte]
    rfl

/-- The length, told from the opcode byte and bit 2 of the flag byte, is what the bytes lose (R101). -/
theorem Decodes.length {op fb : Byte} {bs : List Byte} {i : Instr} {rest : List Byte}
    (h : Decodes (op :: fb :: bs) i rest) :
    i.length = (if op = 0x01 then (if fb.getLsbD 2 then 6 else 4) else 2) ∧
      bs.length + 2 = rest.length + i.length := by
  cases h with
  | word op fb i rest hop hlit =>
    obtain ⟨hne, -, -⟩ := Instr.ofOpcode_eq_some hop hlit
    rw [Instr.length_eq_two hlit, if_neg hne]
    exact ⟨rfl, rfl⟩
  | lit fb b0 b1 rest hshort =>
    rw [Flags.ofByte_short] at hshort
    rw [if_pos rfl, hshort, Instr.length, Flags.ofByte_short, hshort]
    exact ⟨rfl, rfl⟩
  | litShort fb b0 b1 b2 b3 rest hshort =>
    rw [Flags.ofByte_short] at hshort
    rw [if_pos rfl, hshort, Instr.length, Flags.ofByte_short, hshort]
    exact ⟨rfl, rfl⟩

/-- Settles O1: a well-formed instruction's encoding is one of the three forms the decoder reads. -/
theorem decodeInvertsEncode : Obligations.DecodeInvertsEncode :=
  fun _ rest hwf => (Decodes.encode_of_wf hwf rest).decode

/-- Settles O2: each of the three forms is well-formed and holds the bytes of its encoding. -/
theorem encodeInvertsDecode : Obligations.EncodeInvertsDecode := fun _ _ _ h =>
  ⟨(decode_eq_ok_iff.1 h).wf, (decode_eq_ok_iff.1 h).encode_append⟩

/-- Settles O3, form by form (`Decodes.length`). -/
theorem lengthFromFirstWord : Obligations.LengthFromFirstWord :=
  fun _ _ _ _ _ h => (decode_eq_ok_iff.1 h).length

/-- Settles O4: above 0x0A the opcode map has no instruction. -/
theorem illegalOpcodeBytesRefused : Obligations.IllegalOpcodeBytesRefused :=
  fun _ _ rest h => decode_of_ofOpcode_none rest (Instr.ofOpcode_eq_none _ h)

/-- Settles O5: thirteen closed words, each run through the decoder. -/
theorem specWordsDecode : Obligations.SpecWordsDecode := by
  refine ⟨?_, ?_, ?_, ?_, ?_, ?_, ?_, ?_, ?_, ?_, ?_, ?_, ?_⟩ <;> decide

end Sys2Proof
end

section
/-!
PROOFS. What one instruction can do to each part of the state, read off `ExecDoes` case by case: the run state,
the pending latch, the fields no instruction touches, and which instruction alone writes the condition register,
`IP` and the control registers.
-/

namespace Sys2Proof.Machine

/-- The instruction's own part of R232: only `Halt` and a StackOverflow end the run. -/
theorem ExecDoes.run {i : Instr} {s u : State} (h : ExecDoes i s u) :
    u.run = s.run ∨ (u.run = .halted ∧ ∃ f, i = .halt f) ∨ ∃ t, u.run = .fatal (.stackOverflow t s.ip) := by
  cases h with
  | engine hu hi hr hc => exact hr.imp_right .inr
  | halt f hi hu => exact .inr (.inl ⟨by rw [hu], f, hi⟩)
  | store f v hi hv hr hu => exact .inl (hu.run.trans hr)
  | condition f v a b hi hv hr hu => exact .inl (by rw [hu]; exact hr)
  | jump f v a hi hv hr hu => exact .inl (by rw [hu]; exact (setIp_frame a v).run.trans hr)

/-- What every instruction leaves (R36, R223, R243, R282). -/
structure ExecFrame (s u : State) : Prop where
  pending : s.pending = true → u.pending = true
  outputTrace : u.outputTrace = s.outputTrace
  params : u.params = s.params
  stopped : u.stopped = s.stopped
  memOk : MemOk s → MemOk u

theorem EngineFrame.exec {s u : State} (h : EngineFrame s u) : ExecFrame s u :=
  ⟨h.pending, h.outputTrace, h.params, h.stopped, h.memOk⟩

theorem WriteFrame.exec {s u : State} (h : WriteFrame s u) : ExecFrame s u :=
  ⟨h.pending, h.outputTrace, h.params, h.stopped, h.memOk⟩

theorem JumpFrame.exec {s u : State} (h : JumpFrame s u) : ExecFrame s u :=
  ⟨h.pending, h.outputTrace, h.params, h.stopped, fun hm => by rwa [MemOk, h.mem, h.params]⟩

theorem ExecFrame.trans {s u v : State} (h : ExecFrame s u) (k : ExecFrame u v) : ExecFrame s v :=
  ⟨fun hp => k.pending (h.pending hp), k.outputTrace.trans h.outputTrace, k.params.trans h.params,
    k.stopped.trans h.stopped, fun hm => k.memOk (h.memOk hm)⟩

theorem ExecDoes.frame {i : Instr} {s u : State} (h : ExecDoes i s u) : ExecFrame s u := by
  cases h with
  | engine hu hi hr hc => exact hu.exec
  | halt f hi hu => subst hu; exact ⟨id, rfl, rfl, rfl, id⟩
  | store f v hi hv hr hu => exact hv.exec.trans hu.exec
  | condition f v a b hi hv hr hu => subst hu; exact hv.exec.trans ⟨id, rfl, rfl, rfl, id⟩
  | jump f v a hi hv hr hu => subst hu; exact hv.exec.trans (setIp_frame a v).exec

theorem ExecDoes.cr {i : Instr} {s u : State} (h : ExecDoes i s u) (hi : ∀ f, i ≠ .cmp f) :
    u.cr = s.cr := by
  cases h with
  | engine hu _ hr hc => exact hu.cr
  | halt f _ hu => rw [hu]
  | store f v _ hv hr hu => exact hu.cr.trans hv.cr
  | condition f v a b hcmp hv hr hu => exact absurd hcmp (hi f)
  | jump f v a _ hv hr hu => rw [hu]; exact (setIp_frame a v).cr.trans hv.cr

theorem ExecDoes.ip {i : Instr} {s u : State} (h : ExecDoes i s u) (hi : ∀ f, i ≠ .jsr f) :
    u.ip = s.ip := by
  cases h with
  | engine hu _ hr hc => exact hu.ip
  | halt f _ hu => rw [hu]
  | store f v _ hv hr hu => exact hu.ip.trans hv.ip
  | condition f v a b _ hv hr hu => rw [hu]; exact hv.ip
  | jump f v a hjsr hv hr hu => exact absurd hjsr (hi f)

/-- The registers that only a store reaches (R30, R140, R240). -/
structure ControlKept (s u : State) : Prop where
  jv : u.sic.jv = s.sic.jv
  ra : u.sic.ra = s.sic.ra
  base : ∀ t, (u.stack t).base = (s.stack t).base
  outq : u.outq = s.outq
  outReady : u.outReady = s.outReady

theorem EngineFrame.controlKept {s u : State} (h : EngineFrame s u) : ControlKept s u :=
  ⟨h.jv, h.ra, h.base, h.outq, h.outReady⟩

theorem JumpFrame.stack {s u : State} (h : JumpFrame s u) (t : StackId) : u.stack t = s.stack t := by
  cases t
  · exact h.primary
  · exact h.ret

theorem ExecDoes.controlKept {i : Instr} {s u : State} (h : ExecDoes i s u) (hi : ∀ f, i ≠ .str f) :
    ControlKept s u := by
  cases h with
  | engine hu _ hr hc => exact hu.controlKept
  | halt f _ hu => subst hu; exact ⟨rfl, rfl, fun t => by cases t <;> rfl, rfl, rfl⟩
  | store f v hstr hv hr hu => exact absurd hstr (hi f)
  | condition f v a b _ hv hr hu =>
    subst hu
    exact ⟨hv.jv, hv.ra, fun t => by cases t; exacts [hv.base .P, hv.base .R], hv.outq, hv.outReady⟩
  | jump f v a _ hv hr hu =>
    subst hu
    have hj := setIp_frame a v
    exact ⟨hj.jv.trans hv.jv, hj.ra.trans hv.ra, fun t => by rw [hj.stack, hv.base],
      hj.outq.trans hv.outq, hj.outReady.trans hv.outReady⟩

/-- Settles O55, by `exec_does`: it gives the next state, `ExecDoes.run` and `ExecDoes.frame` what it keeps. -/
theorem everyInstructionAnswersNext : Obligations.EveryInstructionAnswersNext := by
  intro i s
  obtain ⟨u, hu, hdoes⟩ := exec_does i s
  have hf := hdoes.frame
  exact ⟨u, hu, hdoes.run, hf.pending, hf.outputTrace, hf.params, hf.stopped⟩

/-- Settles O56. -/
theorem onlyCmpWritesCondition : Obligations.OnlyCmpWritesCondition :=
  fun _ _ _ h hi => (exec_next h).cr hi

/-- Settles O57. -/
theorem onlyJsrSetsIp : Obligations.OnlyJsrSetsIp := fun _ _ _ h hi => (exec_next h).ip hi

/-- Settles O58. -/
theorem onlyStrReachesControlRegisters : Obligations.OnlyStrReachesControlRegisters := by
  intro i s u h hi
  have hk := (exec_next h).controlKept hi
  exact ⟨hk.jv, hk.ra, hk.base .P, hk.base .R, hk.outq, hk.outReady⟩

/-- Settles O39: a `Cmp` that did not stop has written `conditionOf` of two values. -/
theorem cmpLeavesExactlyOneBit : Obligations.CmpLeavesExactlyOneBit := by
  intro f s u _ h hrun
  cases exec_next h with
  | engine hu hi hr hc =>
    obtain ⟨t, hstop⟩ := hc f rfl
    rw [hstop] at hrun
    cases hrun
  | halt g hi hu => cases hi
  | store g v hi hv hr hu => cases hi
  | condition g v a b hi hv hr hu => rw [hu]; exact conditionOf_cases a b
  | jump g v a hi hv hr hu => cases hi

end Sys2Proof.Machine
end

section
/-!
PROOFS. The invariant (10_state.md, 41_dispatch.md section 7). `Sound` is its part that every piece of a cycle
keeps; the output handshake and the latch of a halted machine hold at the end of a cycle only, and are followed
from its start, where the queue is empty and interrupt entry has cleared the latch.
-/

namespace Sys2Proof.Machine

/-! ## The three parts of the invariant -/

/-- The part that every piece of a cycle keeps. -/
structure Sound (s : State) : Prop where
  memOk : MemOk s
  params : s.params.valid
  ipEven : s.ip.toNat % 2 = 0
  condition : s.cr = ⟨false, false, false⟩ ∨ s.cr = ⟨true, false, false⟩ ∨
    s.cr = ⟨false, true, false⟩ ∨ s.cr = ⟨false, false, true⟩

/-- The output port: ready with no byte waiting, or holding with one (R240, R241). -/
def OutputSettled (s : State) : Prop :=
  (s.outReady = true ∧ s.outq = []) ∨ (s.outReady = false ∧ ∃ b, s.outq = [b])

theorem outputSettled_iff (s : State) :
    OutputSettled s ↔ (s.outReady = true ↔ s.outq = []) ∧ s.outq.length ≤ 1 := by
  unfold OutputSettled
  rcases s.outq with _ | ⟨b, _ | ⟨c, q⟩⟩ <;> cases s.outReady <;> simp

theorem invariant_iff (s : State) :
    Invariant s ↔ Sound s ∧ OutputSettled s ∧ (s.run = .halted → s.pending = false) := by
  rw [outputSettled_iff]
  constructor
  · intro h
    exact ⟨⟨⟨h.memWf, h.memWithin⟩, h.params, h.ipEven, h.condition⟩, ⟨h.handshake, h.queue⟩,
      h.haltedQuiet⟩
  · rintro ⟨⟨⟨hwf, hwithin⟩, hp, hip, hc⟩, ⟨hh, hq⟩, hquiet⟩
    exact ⟨hwf, hwithin, hp, hip, hh, hq, hc, hquiet⟩

/-! ## `Sound`, piece by piece -/

theorem EngineFrame.sound {s u : State} (h : EngineFrame s u) (hs : Sound s) : Sound u :=
  ⟨h.memOk hs.memOk, h.params ▸ hs.params, h.ip ▸ hs.ipEven, h.cr ▸ hs.condition⟩

theorem WriteFrame.sound {s u : State} (h : WriteFrame s u) (hs : Sound s) : Sound u :=
  ⟨h.memOk hs.memOk, h.params ▸ hs.params, h.ip ▸ hs.ipEven, h.cr ▸ hs.condition⟩

theorem JumpFrame.sound {s u : State} (h : JumpFrame s u) (hs : Sound s) : Sound u :=
  ⟨h.exec.memOk hs.memOk, h.params ▸ hs.params, h.ipEven, h.cr ▸ hs.condition⟩

theorem ExecDoes.sound {i : Instr} {s u : State} (h : ExecDoes i s u) (hs : Sound s) : Sound u := by
  cases h with
  | engine hu hi hr hc => exact hu.sound hs
  | halt f hi hu => subst hu; exact ⟨hs.memOk, hs.params, hs.ipEven, hs.condition⟩
  | store f v hi hv hr hu => exact hu.sound (hv.sound hs)
  | condition f v a b hi hv hr hu =>
    subst hu
    have h := hv.sound hs
    exact ⟨h.memOk, h.params, h.ipEven, .inr (conditionOf_cases a b)⟩
  | jump f v a hi hv hr hu => subst hu; exact (setIp_frame a v).sound (hv.sound hs)

theorem Instr.length_cases (i : Instr) : i.length = 2 ∨ i.length = 4 ∨ i.length = 6 := by
  cases i with
  | lit f imm => cases hs : f.short <;> simp [Instr.length, hs]
  | _ => exact .inl rfl

/-- `IP` moves by whole 16-bit words, also where it wraps (R101, R161). -/
theorem advance_sound {i : Instr} {a : Word} {s : State} (ha : a.toNat % 2 = 0) (hs : Sound s) :
    Sound (advance i a s) := by
  refine ⟨hs.memOk, hs.params, ?_, hs.condition⟩
  rw [advance_ip, BitVec.toNat_add, BitVec.toNat_ofNat]
  rcases Instr.length_cases i with hl | hl | hl <;> rw [hl] <;> omega

theorem takeInterrupt_sound {s : State} (hs : Sound s) : Sound (takeInterrupt s) :=
  ⟨hs.memOk, hs.params, clearBit0_even s.sic.jv, hs.condition⟩

theorem interruptEntry_sound {s : State} (hs : Sound s) : Sound (interruptEntry s) := by
  unfold interruptEntry
  split
  · exact takeInterrupt_sound hs
  · exact hs

theorem dispatch_sound {i : Instr} {a : Word} {s u : State} (ha : a.toNat % 2 = 0) (hs : Sound s)
    (h : dispatch i a s = .next u) : Sound u := by
  unfold dispatch at h
  split at h
  · obtain ⟨v, hv, hu⟩ := afterExec_next h
    have hexec := (exec_next hv).sound ((withImmediate_frame i a s).1.sound hs)
    rcases hu with rfl | rfl
    · exact hexec
    · exact advance_sound ha hexec
  · cases h
    exact advance_sound ha hs

theorem fetchAndRun_sound {s u : State} (hs : Sound s) (h : fetchAndRun s = .next u) : Sound u := by
  have hfetch := (fetchRead16_frame s.ip s).1.sound hs
  simp only [fetchAndRun] at h
  split at h
  · cases h
    exact (fatalStop_frame _ _).sound hfetch
  · exact dispatch_sound hs.ipEven hfetch h

theorem cycle_sound {s u : State} (hs : Sound s) (h : cycle s = .next u) : Sound u :=
  fetchAndRun_sound (interruptEntry_sound hs) h

/-! ## The output port over a cycle -/

/-- What a piece of a cycle can do to the output port: leave it, or write one byte (R240). -/
def WritesOneByte (s u : State) : Prop :=
  (u.outq = s.outq ∧ u.outReady = s.outReady) ∨ ∃ b, u.outq = s.outq ++ [b] ∧ u.outReady = false

theorem WritesOneByte.of_kept {s v u : State} (hq : v.outq = s.outq) (hr : v.outReady = s.outReady)
    (h : WritesOneByte v u) : WritesOneByte s u := by
  unfold WritesOneByte at *
  rwa [hq, hr] at h

theorem EngineFrame.writesOneByte {s u : State} (h : EngineFrame s u) : WritesOneByte s u :=
  .inl ⟨h.outq, h.outReady⟩

theorem ExecDoes.writesOneByte {i : Instr} {s u : State} (h : ExecDoes i s u) : WritesOneByte s u := by
  cases h with
  | engine hu hi hr hc => exact hu.writesOneByte
  | halt f hi hu => subst hu; exact .inl ⟨rfl, rfl⟩
  | store f v hi hv hr hu => exact .of_kept hv.outq hv.outReady hu.output
  | condition f v a b hi hv hr hu => subst hu; exact .inl ⟨hv.outq, hv.outReady⟩
  | jump f v a hi hv hr hu =>
    subst hu
    have hj := setIp_frame a v
    exact .inl ⟨hj.outq.trans hv.outq, hj.outReady.trans hv.outReady⟩

theorem dispatch_writesOneByte {i : Instr} {a : Word} {s u : State} (h : dispatch i a s = .next u) :
    WritesOneByte s u := by
  unfold dispatch at h
  split at h
  · obtain ⟨v, hv, hu⟩ := afterExec_next h
    have himm := (withImmediate_frame i a s).1
    have hexec := (exec_next hv).writesOneByte.of_kept himm.outq himm.outReady
    rcases hu with rfl | rfl <;> exact hexec
  · cases h
    exact .inl ⟨rfl, rfl⟩

theorem cycle_writesOneByte {s u : State} (h : cycle s = .next u) : WritesOneByte s u := by
  have hentry : (interruptEntry s).outq = s.outq ∧ (interruptEntry s).outReady = s.outReady := by
    unfold interruptEntry
    split <;> exact ⟨rfl, rfl⟩
  have hfetch := (fetchRead16_frame (interruptEntry s).ip (interruptEntry s)).1
  refine .of_kept hentry.1 hentry.2 (.of_kept hfetch.outq hfetch.outReady ?_)
  simp only [cycle, fetchAndRun] at h
  split at h
  · cases h
    exact .inl ⟨rfl, rfl⟩
  · exact dispatch_writesOneByte h

theorem WritesOneByte.settled {s u : State} (h : WritesOneByte s u) (hr : s.outReady = true)
    (hq : s.outq = []) : OutputSettled u := by
  rcases h with ⟨hq', hr'⟩ | ⟨b, hq', hr'⟩
  · exact .inl ⟨hr'.trans hr, hq'.trans hq⟩
  · exact .inr ⟨hr', b, by rw [hq', hq]; rfl⟩

/-! ## A halted machine has no interrupt pending (R235) -/

/-- Only an executed `Halt` halts, and it leaves the latch as the fetch left it. -/
theorem dispatch_halted {i : Instr} {a : Word} {s u : State} (h : dispatch i a s = .next u)
    (hs : s.run = .running) (hu : u.run = .halted) :
    (∃ f, i = .halt f) ∧ u.pending = s.pending := by
  unfold dispatch at h
  split at h
  · obtain ⟨v, hv, huv⟩ := afterExec_next h
    have hvrun : v.run = .halted := by rcases huv with rfl | rfl <;> exact hu
    have himm := (withImmediate_frame i a s).2
    rcases (exec_next hv).run with hr | ⟨-, f, hi⟩ | ⟨t, hr⟩
    · rw [hr, himm, hs] at hvrun
      cases hvrun
    · have hhalt : i = .halt f := by
        cases i with
        | halt g => exact hi
        | _ => cases hi
      subst hhalt
      cases hv
      rcases huv with rfl | rfl <;> exact ⟨⟨f, rfl⟩, rfl⟩
    · rw [hr] at hvrun
      cases hvrun
  · cases h
    rw [advance_run, hs] at hu
    cases hu

/-- A `Halt` is never the word 0x0000 that a faulting fetch reads (R153), so its fetch raised nothing. -/
theorem fetchAndRun_halted {s u : State} (h : fetchAndRun s = .next u) (hs : s.run = .running)
    (hp : s.pending = false) (hu : u.run = .halted) : u.pending = false := by
  simp only [fetchAndRun] at h
  split at h
  · cases h
    cases hu
  next i hi =>
    obtain ⟨⟨f, rfl⟩, hkept⟩ := dispatch_halted h ((fetchRead16_frame s.ip s).2.trans hs) hu
    rw [hkept]
    rcases mmuRead_state s.ip .narrow s with hstate | ⟨k, hfault⟩
    · rw [fetchRead16, hstate, hp]
    · simp only [fetchRead16, hfault] at hi
      cases hi

theorem interruptEntry_pending (s : State) : (interruptEntry s).pending = false := by
  unfold interruptEntry
  split
  · rfl
  next h => simpa using h

theorem interruptEntry_run (s : State) : (interruptEntry s).run = s.run := by
  unfold interruptEntry
  split <;> rfl

/-! ## One step of either agent -/

theorem cycle_invariant {s u : State} (hs : Invariant s) (hrun : s.run = .running)
    (hready : s.outReady = true) (h : cycle s = .next u) : Invariant u := by
  obtain ⟨hsound, -, -⟩ := (invariant_iff s).1 hs
  have hsettled := (cycle_writesOneByte h).settled hready (hs.handshake.1 hready)
  have hquiet := fetchAndRun_halted h ((interruptEntry_run s).trans hrun) (interruptEntry_pending s)
  exact (invariant_iff u).2 ⟨cycle_sound hsound h, hsettled, hquiet⟩

theorem deviceStep_invariant {s u : State} (hs : Invariant s) (h : deviceStep s = some u) :
    Invariant u := by
  obtain ⟨hsound, -, hquiet⟩ := (invariant_iff s).1 hs
  have hlen := hs.queue
  unfold deviceStep at h
  split at h <;> cases h
  next b q hq =>
    have hempty : q = [] := by simpa [hq] using hlen
    exact (invariant_iff _).2 ⟨⟨hsound.memOk, hsound.params, hsound.ipEven, hsound.condition⟩,
      .inl ⟨rfl, hempty⟩, hquiet⟩

theorem deviceOr_invariant {r : Fault} {s u : State} (hs : Invariant s) (h : deviceOr r s = .next u) :
    Invariant u := by
  unfold deviceOr at h
  split at h <;> cases h
  next hd => exact deviceStep_invariant hs hd

/-- Settles O53: the CORE's cycle by `cycle_invariant`, the device's step by `deviceStep_invariant`. -/
theorem everyStepKeepsInvariant : Obligations.EveryStepKeepsInvariant := by
  intro s u hs h
  unfold step agentStep at h
  split at h
  next hrun =>
    split at h
    · exact deviceOr_invariant hs h
    · split at h
      next hready => exact cycle_invariant hs hrun hready h
      · exact deviceOr_invariant hs h
  · exact deviceOr_invariant hs h
  · exact deviceOr_invariant hs h

/-! ## A running machine has a next state -/

theorem afterExec_of_next (i : Instr) (a : Word) (s : State) : ∃ u, afterExec i a (.next s) = .next u := by
  simp only [afterExec]
  split <;> exact ⟨_, rfl⟩

theorem dispatch_answers (i : Instr) (a : Word) (s : State) : ∃ u, dispatch i a s = .next u := by
  unfold dispatch
  split
  · obtain ⟨v, hv, -⟩ := exec_does (withImmediate i a s).1 (withImmediate i a s).2
    simp only [hv]
    exact afterExec_of_next i a v
  · exact ⟨_, rfl⟩

/-- A cycle never ends a run but through a next state (R164, R231). -/
theorem cycle_answers (s : State) : ∃ u, cycle s = .next u := by
  simp only [cycle, fetchAndRun]
  split
  · exact ⟨_, rfl⟩
  · exact dispatch_answers ..

/-- Settles O54: the cycle always answers, and where the output holds the CORE a byte waits for the device. -/
theorem runningMachineAlwaysSteps : Obligations.RunningMachineAlwaysSteps := by
  intro s hs hrun hstop
  simp only [step, agentStep, hrun, hstop, Bool.false_eq_true, if_false]
  split
  · exact cycle_answers s
  next hheld =>
    have hwaits : s.outq ≠ [] := fun hq => hheld (hs.handshake.2 hq)
    obtain ⟨b, q, hq⟩ := List.exists_cons_of_ne_nil hwaits
    simp only [deviceOr, deviceStep, hq]
    exact ⟨_, rfl⟩

end Sys2Proof.Machine
end

section
/-!
PROOFS. The output changes no value the CORE computes (41_dispatch.md R165). `SameCore` relates two states that
differ in output queue and trace only; every operation of a cycle, run in both, gives the same value and related
states (`SameRead`, `SameFlow`, `SameOutcome`), a write of an output byte among them.
-/

namespace Sys2Proof.Machine

/-! ## The relation on states -/

/-- The same CORE: two states that differ in their output queue and trace only. -/
def SameCore (s s' : State) : Prop := forgetOutput s = forgetOutput s'

theorem SameCore.eq_update {s s' : State} (h : SameCore s s') :
    s' = { s with outq := s'.outq, outputTrace := s'.outputTrace } := by
  have hback : forgetOutput s' = forgetOutput s := h.symm
  calc s' = { forgetOutput s' with outq := s'.outq, outputTrace := s'.outputTrace } := rfl
    _ = { forgetOutput s with outq := s'.outq, outputTrace := s'.outputTrace } := by rw [hback]

/-- The form in which a pair is given to the lemmas on one operation. -/
theorem SameCore.exists_output {s s' : State} (h : SameCore s s') :
    ∃ q tr, s' = { s with outq := q, outputTrace := tr } := ⟨_, _, h.eq_update⟩

theorem SameCore.ip {s s' : State} (h : SameCore s s') : s'.ip = s.ip := by rw [h.eq_update]
theorem SameCore.cr {s s' : State} (h : SameCore s s') : s'.cr = s.cr := by rw [h.eq_update]
theorem SameCore.run {s s' : State} (h : SameCore s s') : s'.run = s.run := by rw [h.eq_update]
theorem SameCore.pending {s s' : State} (h : SameCore s s') : s'.pending = s.pending := by rw [h.eq_update]
theorem SameCore.mem {s s' : State} (h : SameCore s s') : s'.mem = s.mem := by rw [h.eq_update]
theorem SameCore.params {s s' : State} (h : SameCore s s') : s'.params = s.params := by rw [h.eq_update]
theorem SameCore.stack {s s' : State} (h : SameCore s s') (t : StackId) : s'.stack t = s.stack t := by
  rw [h.eq_update]; cases t <;> rfl
theorem SameCore.ioValue {s s' : State} (h : SameCore s s') (r : IoReg) : ioValue s' r = ioValue s r := by
  rw [h.eq_update]; cases r <;> rfl

theorem SameCore.advance {s s' : State} (h : SameCore s s') (i : Instr) (a : Word) :
    SameCore (advance i a s) (advance i a s') := by
  obtain ⟨q, tr, rfl⟩ := h.exists_output
  rfl

/-! ## The relation on results -/

/-- The same value, and related states. -/
def SameRead {α : Type} (r r' : α × State) : Prop := r.1 = r'.1 ∧ SameCore r.2 r'.2

/-- Pseudocode goes on with the same value in both runs, or stops in both. -/
inductive SameFlow {α : Type} : Flow α → Flow α → Prop where
  | cont (a : α) {s s' : State} (h : SameCore s s') : SameFlow (.cont a s) (.cont a s')
  | stop {s s' : State} (h : SameCore s s') : SameFlow (.stop s) (.stop s')

/-- A next state in both runs. -/
inductive SameOutcome : Host.Outcome State Fault Refusal → Host.Outcome State Fault Refusal → Prop where
  | next {s s' : State} (h : SameCore s s') : SameOutcome (.next s) (.next s')

theorem SameFlow.bind {α β : Type} {x x' : Flow α} {f : α → State → Flow β} (hx : SameFlow x x')
    (hf : ∀ a {s s' : State}, SameCore s s' → SameFlow (f a s) (f a s')) :
    SameFlow (x.bind f) (x'.bind f) := by
  cases hx with
  | cont a h => exact hf a h
  | stop h => exact .stop h

theorem SameOutcome.afterExec {o o' : Host.Outcome State Fault Refusal} (h : SameOutcome o o') (i : Instr)
    (a : Word) : SameOutcome (afterExec i a o) (afterExec i a o') := by
  cases h with
  | next h =>
    simp only [Machine.afterExec, h.run]
    split
    · exact .next (h.advance i a)
    · exact .next h

theorem SameFlow.outcome {α : Type} {x x' : Flow α} (h : SameFlow x x') :
    SameOutcome x.outcome x'.outcome := by
  cases h with
  | cont a h => exact .next h
  | stop h => exact .next h

/-! ## The operations on the state -/

section
variable {s s' : State} (h : SameCore s s')
include h

theorem SameCore.setOff (t : StackId) (o : Half) : SameCore (s.setOff t o) (s'.setOff t o) := by
  obtain ⟨q, tr, rfl⟩ := h.exists_output
  cases t <;> rfl

theorem SameCore.setMem (m : Memory) : SameCore (s.setMem m) (s'.setMem m) := by
  obtain ⟨q, tr, rfl⟩ := h.exists_output
  rfl

theorem SameCore.setCr (c : CondReg) : SameCore { s with cr := c } { s' with cr := c } := by
  obtain ⟨q, tr, rfl⟩ := h.exists_output
  rfl

theorem SameCore.genInt (c : Word) (e : Bool) : SameCore (genInt c e s) (genInt c e s') := by
  obtain ⟨q, tr, rfl⟩ := h.exists_output
  rfl

theorem SameCore.raiseFault (k : FaultKind) : SameCore (raiseFault k s) (raiseFault k s') :=
  h.genInt _ _

theorem SameCore.fatalStop (i : FatalInfo) : SameCore (fatalStop i s) (fatalStop i s') := by
  obtain ⟨q, tr, rfl⟩ := h.exists_output
  rfl

theorem SameCore.takeInterrupt : SameCore (takeInterrupt s) (takeInterrupt s') := by
  obtain ⟨q, tr, rfl⟩ := h.exists_output
  rfl

theorem SameCore.interruptEntry : SameCore (interruptEntry s) (interruptEntry s') := by
  unfold Machine.interruptEntry
  rw [h.pending]
  split
  · exact h.takeInterrupt
  · exact h

theorem SameCore.setIp (v : Word) : SameCore (setIp v s) (setIp v s') := by
  obtain ⟨q, tr, rfl⟩ := h.exists_output
  unfold Machine.setIp
  split <;> rfl

/-! ## The guarded accessors and the MMU -/

theorem SameCore.guardedRead (i : Nat) (w : Width) : SameRead (guardedRead i w s) (guardedRead i w s') := by
  unfold Machine.guardedRead
  rw [h.params, h.mem]
  split
  · exact ⟨rfl, h.raiseFault _⟩
  · split
    · exact ⟨rfl, h.raiseFault _⟩
    · exact ⟨rfl, h⟩

theorem SameCore.guardedWrite (i : Nat) (w : Width) (v : Word) :
    SameCore (guardedWrite i w v s) (guardedWrite i w v s') := by
  unfold Machine.guardedWrite
  rw [h.params, h.mem]
  split
  · exact h.raiseFault _
  · split
    · exact h.raiseFault _
    · exact h.setMem _

theorem SameCore.mmuRead (a : Word) (w : Width) : SameRead (mmuRead a w s) (mmuRead a w s') := by
  unfold Machine.mmuRead ioRead
  rw [h.params]
  split
  · split
    · exact ⟨rfl, h.raiseFault _⟩
    · split
      next r hr => exact ⟨by rw [h.ioValue], h⟩
      · exact ⟨rfl, h.raiseFault _⟩
  · split
    · exact h.guardedRead _ _
    · exact ⟨rfl, h.raiseFault _⟩

/-- The one write that reaches the output queue appends to both queues, which the relation forgets. -/
theorem SameCore.ioRegWrite (r : IoReg) (v : Word) : SameCore (ioRegWrite r v s) (ioRegWrite r v s') := by
  obtain ⟨q, tr, rfl⟩ := h.exists_output
  cases r <;> rfl

theorem SameCore.mmuWrite (a : Word) (w : Width) (v : Word) :
    SameCore (mmuWrite a w v s) (mmuWrite a w v s') := by
  unfold Machine.mmuWrite ioWrite
  rw [h.params]
  split
  · split
    · exact h.raiseFault _
    · split
      · exact h.ioRegWrite _ _
      · exact h.raiseFault _
  · split
    · exact h.guardedWrite _ _ _
    · exact h.raiseFault _

theorem SameCore.fetchRead16 (a : Word) : SameRead (fetchRead16 a s) (fetchRead16 a s') :=
  ⟨congrArg (BitVec.setWidth 16) (h.mmuRead a .narrow).1, (h.mmuRead a .narrow).2⟩

/-! ## The stack engine -/

theorem SameCore.slotRead (t : StackId) (o : Half) : SameRead (slotRead t o s) (slotRead t o s') := by
  unfold Machine.slotRead
  rw [h.stack]
  have hr := h.guardedRead ((s.stack t).base.toNat + o.toNat) .narrow
  exact ⟨congrArg (BitVec.setWidth 16) hr.1, hr.2⟩

theorem SameCore.slotWrite (t : StackId) (o v : Half) : SameCore (slotWrite t o v s) (slotWrite t o v s') := by
  unfold Machine.slotWrite
  rw [h.stack]
  exact h.guardedWrite _ _ _

theorem SameCore.push16 (t : StackId) (v : Half) : SameFlow (push16 t v s) (push16 t v s') := by
  unfold Machine.push16
  rw [h.stack, h.ip]
  split
  · exact .stop (h.fatalStop _)
  · exact .cont () ((h.slotWrite _ _ _).setOff _ _)

theorem SameCore.pop16 (t : StackId) : SameRead (pop16 t s) (pop16 t s') := by
  unfold Machine.pop16
  rw [h.stack]
  split
  · exact ⟨rfl, h.setOff _ _⟩
  · have hr := (h.setOff t ((s.stack t).off - 2)).slotRead t ((s.stack t).off - 2)
    exact ⟨hr.1, hr.2.slotWrite _ _ _⟩

theorem SameCore.push (t : StackId) (w : Width) (v : Word) : SameFlow (push t w v s) (push t w v s') := by
  cases w with
  | narrow => exact h.push16 _ _
  | wide => exact (h.push16 _ _).bind fun _ _ _ h => h.push16 _ _

theorem SameCore.popValue (t : StackId) (w : Width) : SameRead (popValue t w s) (popValue t w s') := by
  have hi := h.pop16 t
  cases w with
  | narrow => exact ⟨congrArg (BitVec.setWidth 32) hi.1, hi.2⟩
  | wide =>
    have lo := hi.2.pop16 t
    exact ⟨congrArg₂ (fun a b : Half => (a ++ b : Word)) hi.1 lo.1, lo.2⟩

theorem SameCore.pop (t : StackId) (w : Width) (keep : Bool) : SameFlow (pop t w keep s) (pop t w keep s') := by
  obtain ⟨hv, hs⟩ := h.popValue t w
  simp only [Machine.pop, ← hv]
  cases keep with
  | false => exact .cont _ hs
  | true => exact (hs.push t w _).bind fun _ _ _ h => .cont _ h

/-! ## The instructions -/

theorem SameCore.fetchImmediate (a : Word) (w : Width) :
    SameRead (fetchImmediate a w s) (fetchImmediate a w s') := by
  have lo := h.fetchRead16 a
  cases w with
  | narrow => exact ⟨congrArg (fun x => wordOfHalves x 0) lo.1, lo.2⟩
  | wide =>
    have hi := lo.2.fetchRead16 (a + 2)
    exact ⟨congrArg₂ wordOfHalves lo.1 hi.1, hi.2⟩

theorem SameCore.withImmediate (i : Instr) (a : Word) :
    SameRead (withImmediate i a s) (withImmediate i a s') := by
  cases i with
  | lit f imm =>
    have hr := h.fetchImmediate (a + 2) f.width
    exact ⟨congrArg (Instr.lit f) hr.1, hr.2⟩
  | _ => exact ⟨rfl, h⟩

theorem SameCore.over (f : Flags) : SameOutcome (execOver f s) (execOver f s') := by
  refine SameFlow.outcome ?_
  refine (h.pop _ _ _).bind fun v0 _ _ h => ?_
  refine (h.pop _ _ _).bind fun v1 _ _ h => ?_
  refine (h.pop _ _ _).bind fun v2 _ _ h => ?_
  refine (h.push _ _ v2).bind fun _ _ _ h => ?_
  refine (h.push _ _ v0).bind fun _ _ _ h => ?_
  exact h.push _ _ v1

theorem SameCore.jsr (f : Flags) : SameOutcome (execJsr f s) (execJsr f s') := by
  have hcall : SameFlow (jsrCall f s) (jsrCall f s') :=
    (h.pop _ _ _).bind fun target _ _ h => by
      rw [h.ip]
      exact (h.push _ _ _).bind fun _ _ _ h => .cont () (h.setIp target)
  have hreturn : SameFlow (jsrReturn f s) (jsrReturn f s') := by
    unfold jsrReturn
    rw [h.ip]
    exact (h.push _ _ _).bind fun _ _ _ h => (h.pop _ _ _).bind fun target _ _ h =>
      .cont () (h.setIp target)
  unfold execJsr
  split
  · exact hreturn.outcome
  · exact hcall.outcome

theorem SameCore.exec (i : Instr) : SameOutcome (exec i s) (exec i s') := by
  cases i with
  | nop f => exact .next h
  | lit f imm => exact SameFlow.outcome (h.push _ _ _)
  | dup f =>
    refine SameFlow.outcome ?_
    exact SameFlow.bind (h.pop _ _ _) fun v _ _ h => h.push _ _ v
  | ovr f => exact h.over f
  | str f =>
    refine SameFlow.outcome ?_
    refine SameFlow.bind (h.pop _ _ _) fun a _ _ h => ?_
    exact SameFlow.bind (h.pop _ _ _) fun d _ _ h => .cont () (h.mmuWrite a _ d)
  | load f =>
    refine SameFlow.outcome ?_
    refine SameFlow.bind (h.pop _ _ _) fun a _ _ h => ?_
    obtain ⟨hv, hs⟩ := h.mmuRead a f.width
    simp only [hv]
    exact hs.push _ _ _
  | push f =>
    refine SameFlow.outcome ?_
    exact SameFlow.bind (h.pop _ _ _) fun v _ _ h => h.push _ _ v
  | drop f => exact SameFlow.outcome (h.pop _ _ _)
  | jsr f => exact h.jsr f
  | cmp f =>
    refine SameFlow.outcome ?_
    refine SameFlow.bind (h.pop _ _ _) fun v1 _ _ h => ?_
    exact SameFlow.bind (h.pop _ _ _) fun v2 _ _ h => .cont () (h.setCr (conditionOf v1 v2))
  | halt f =>
    obtain ⟨q, tr, rfl⟩ := h.exists_output
    exact .next rfl

/-! ## The cycle -/

theorem SameCore.dispatch (i : Instr) (a : Word) : SameOutcome (dispatch i a s) (dispatch i a s') := by
  obtain ⟨hi, hs⟩ := h.withImmediate i a
  simp only [Machine.dispatch, h.cr, ← hi]
  split
  · exact (hs.exec _).afterExec i a
  · exact .next (h.advance _ _)

theorem SameCore.fetchAndRun : SameOutcome (fetchAndRun s) (fetchAndRun s') := by
  obtain ⟨hw, hs⟩ := h.fetchRead16 s.ip
  simp only [Machine.fetchAndRun, h.ip, ← hw]
  split
  · exact .next (hs.fatalStop _)
  · exact hs.dispatch _ _

theorem SameCore.cycle : SameOutcome (cycle s) (cycle s') := h.interruptEntry.fetchAndRun

end

/-- Settles O60: both runs of the cycle answer related next states (`SameCore.cycle`). -/
theorem outputDoesNotAffectCore : Obligations.OutputDoesNotAffectCore := by
  intro s s' u h hu
  have hc := SameCore.cycle h
  rw [hu] at hc
  cases hs' : cycle s' with
  | next u' =>
    rw [hs'] at hc
    cases hc with
    | next huu => exact ⟨u', rfl, huu⟩
  | fault r => rw [hs'] at hc; cases hc
  | refused r => rw [hs'] at hc; cases hc

end Sys2Proof.Machine
end

section
/-!
PROOFS. The guarded accessors and the MMU (20_memory.md R50 to R77). `memRead_byte` reads single bytes back
from a raw read; `mmuRead_register` and `mmuWrite_register` send an access of the I/O window to its register.
-/

namespace Sys2Proof.Machine

/-! ## A fault, spelled out (R222) -/

theorem raiseFault_align (s : State) : raiseFault .align s = raised 0x80000001 s := rfl
theorem raiseFault_bounds (s : State) : raiseFault .bounds s = raised 0x80000002 s := rfl
theorem raiseFault_unmappedIo (s : State) : raiseFault .unmappedIo s = raised 0x80000003 s := rfl
theorem raiseFault_unmappedAddr (s : State) : raiseFault .unmappedAddr s = raised 0x80000004 s := rfl

/-! ## The guarded accessors (R54, R55) -/

/-- Byte `j` of a raw read is the memory's byte `j` from the index on (R51). -/
theorem memRead_byte (n : Nat) (m : Memory) (i j : Nat) (hj : j < n) :
    BitVec.ofNat 8 (memRead m i n / 2 ^ (8 * j)) = m.read (i + j) := by
  induction n generalizing i j with
  | zero => omega
  | succ n ih =>
    have hb := (m.read i).isLt
    show BitVec.ofNat 8 (((m.read i).toNat + 2 ^ 8 * memRead m (i + 1) n) / 2 ^ (8 * j)) = _
    cases j with
    | zero =>
      apply BitVec.eq_of_toNat_eq
      simp only [Nat.mul_zero, Nat.pow_zero, Nat.div_one, Nat.add_zero, BitVec.toNat_ofNat]
      omega
    | succ j =>
      have htail : ((m.read i).toNat + 2 ^ 8 * memRead m (i + 1) n) / 2 ^ 8 = memRead m (i + 1) n := by omega
      rw [show 8 * (j + 1) = 8 + 8 * j by omega, pow_add, ← Nat.div_div_eq_div_mul, htail,
        ih (i + 1) j (by omega), show i + 1 + j = i + (j + 1) by omega]

theorem memRead_bytes_lt (m : Memory) (i : Nat) (w : Width) :
    memRead m i w.bytes < 2 ^ (8 * w.bytes) ∧ memRead m i w.bytes < 2 ^ 32 := by
  have h := memRead_lt w.bytes m i
  rcases Width.bytes_cases w with hw | hw <;> rw [hw] at h ⊢ <;> omega

theorem toNat_ofNat_memRead (m : Memory) (i : Nat) (w : Width) :
    (BitVec.ofNat 32 (memRead m i w.bytes)).toNat = memRead m i w.bytes :=
  Nat.mod_eq_of_lt (memRead_bytes_lt m i w).2

/-- Settles O6: the three branches of the accessor; the bytes by `memRead_byte`. -/
theorem guardedReadOutcome : Obligations.GuardedReadOutcome := by
  refine fun i w s => ⟨fun h => guardedRead_misaligned s h, fun h hi => guardedRead_outside s h hi,
    fun h hi => ⟨_, guardedRead_inside s h hi, ?width, fun j hj => ?byte⟩⟩
  case width => rw [toNat_ofNat_memRead]; exact (memRead_bytes_lt s.mem i w).1
  case byte => rw [byteOf, toNat_ofNat_memRead, memRead_byte _ _ _ _ hj]

/-- Settles O7: the three branches of the accessor; the bytes by `read_memWrite`. -/
theorem guardedWriteOutcome : Obligations.GuardedWriteOutcome := fun i w v s hm =>
  ⟨fun h => guardedWrite_misaligned v s h, fun h hi => guardedWrite_outside v s h hi,
    fun h hi => ⟨_, guardedWrite_inside v s h hi, fun a => read_memWrite w.bytes s.mem i v.toNat a hm⟩⟩

/-! ## The low part of a value (R77) -/

@[simp] theorem Width.low_zero (w : Width) : w.low 0 = 0 := by cases w <;> rfl

@[simp] theorem Width.low_half (w : Width) (h : Half) : w.low (h.setWidth 32) = h.setWidth 32 := by
  have hh := h.isLt
  apply low_of_lt
  rw [BitVec.toNat_setWidth]
  rcases Width.bytes_cases w with hw | hw <;> rw [hw] <;> omega

@[simp] theorem Width.setWidth_16_low (w : Width) (v : Word) : (w.low v).setWidth 16 = v.setWidth 16 := by
  cases w <;> simp [Width.low]

@[simp] theorem Width.setWidth_8_low (w : Width) (v : Word) : (w.low v).setWidth 8 = v.setWidth 8 := by
  cases w with
  | narrow =>
    apply BitVec.eq_of_toNat_eq
    simp only [Width.low, BitVec.toNat_setWidth]
    omega
  | wide => rfl

theorem Width.toNat_low (w : Width) (v : Word) : (w.low v).toNat = v.toNat % 2 ^ (8 * w.bytes) := by
  have hv := v.isLt
  cases w with
  | narrow => simp only [Width.low, Width.bytes, BitVec.toNat_setWidth]; omega
  | wide => simp only [Width.low, Width.bytes]; omega

theorem Width.low_crr (w : Width) (c : CondReg) :
    w.low c.toWord = (if c.eq then 1 else 0) + (if c.gt then 2 else 0) + (if c.lt then 4 else 0) := by
  obtain ⟨e, g, l⟩ := c
  cases w <;> revert e g l <;> decide

/-! ## The windows (R62, R63, R74) -/

theorem mmuRead_io_misaligned {a : Word} {w : Width} {s : State} (h1 : a.toNat ≤ ioHi)
    (h2 : a.toNat % w.bytes ≠ 0) : mmuRead a w s = (0, raiseFault .align s) := by
  unfold mmuRead
  rw [if_pos ⟨Nat.zero_le _, h1⟩, if_pos h2]

theorem mmuWrite_io_misaligned {a : Word} {w : Width} {v : Word} {s : State} (h1 : a.toNat ≤ ioHi)
    (h2 : a.toNat % w.bytes ≠ 0) : mmuWrite a w v s = raiseFault .align s := by
  unfold mmuWrite
  rw [if_pos ⟨Nat.zero_le _, h1⟩, if_pos h2]

theorem IoReg.ofAddr_eq_none {a : Nat}
    (h : a ∉ [0x000, 0x002, 0x004, 0x006, 0x00C, 0x100, 0x200, 0x204, 0x300, 0x304, 0x308]) :
    IoReg.ofAddr a = none := by
  unfold IoReg.ofAddr
  split
  case h_12 => rfl
  all_goals exact absurd (by decide) h

theorem mmuRead_above {a : Word} {w : Width} {s : State} (h1 : memLo ≤ a.toNat)
    (h2 : s.params.memWinHi < a.toNat) : mmuRead a w s = (0, raiseFault .unmappedAddr s) := by
  unfold mmuRead
  rw [if_neg (by unfold ioHi; unfold memLo at h1; omega), if_neg (by omega)]

theorem mmuWrite_above {a : Word} {w : Width} {v : Word} {s : State} (h1 : memLo ≤ a.toNat)
    (h2 : s.params.memWinHi < a.toNat) : mmuWrite a w v s = raiseFault .unmappedAddr s := by
  unfold mmuWrite
  rw [if_neg (by unfold ioHi; unfold memLo at h1; omega), if_neg (by omega)]

theorem mmuRead_unmapped {a : Word} {w : Width} {s : State} (h1 : a.toNat ≤ ioHi)
    (h2 : a.toNat % w.bytes = 0) (h3 : IoReg.ofAddr a.toNat = none) :
    mmuRead a w s = (0, raiseFault .unmappedIo s) := by
  simp only [mmuRead_io h1 h2, ioRead, h3]

theorem mmuWrite_unmapped {a : Word} {w : Width} {v : Word} {s : State} (h1 : a.toNat ≤ ioHi)
    (h2 : a.toNat % w.bytes = 0) (h3 : IoReg.ofAddr a.toNat = none) :
    mmuWrite a w v s = raiseFault .unmappedIo s := by
  simp only [mmuWrite_io h1 h2, ioWrite, h3]

/-- Settles O8, window by window. -/
theorem mmuRoutesAddresses : Obligations.MmuRoutesAddresses := by
  refine fun a w v s => ⟨fun hio hal => ?misaligned, fun hio hal hno => ?unmapped, fun hlo hhi => ?window,
    fun hlo hhi => ?above⟩
  case misaligned =>
    rw [← raiseFault_align]
    exact ⟨mmuRead_io_misaligned hio hal, mmuWrite_io_misaligned hio hal⟩
  case unmapped =>
    have hnone := IoReg.ofAddr_eq_none hno
    rw [← raiseFault_unmappedIo]
    exact ⟨mmuRead_unmapped hio hal hnone, mmuWrite_unmapped hio hal hnone⟩
  case window => exact ⟨mmuRead_window hlo hhi, mmuWrite_window hlo hhi⟩
  case above =>
    rw [← raiseFault_unmappedAddr]
    exact ⟨mmuRead_above hlo hhi, mmuWrite_above hlo hhi⟩

/-! ## The registers of the I/O window (R70 to R77) -/

/-- Where register `r` lies. -/
def IoReg.addr : IoReg → Word
  | .pbase => 0x000
  | .poff => 0x002
  | .rbase => 0x004
  | .roff => 0x006
  | .swireq => 0x00C
  | .out => 0x100
  | .ipr => 0x200
  | .crr => 0x204
  | .jv => 0x300
  | .cause => 0x304
  | .ra => 0x308

/-- The widths at which the access of a register is aligned: both, but for the two offset registers. -/
def IoReg.Aligned (r : IoReg) (w : Width) : Prop := r.addr.toNat % w.bytes = 0

theorem IoReg.aligned_narrow (r : IoReg) : r.Aligned .narrow := by cases r <;> rfl

theorem IoReg.aligned_of_ne {r : IoReg} (hp : r ≠ .poff) (hr : r ≠ .roff) (w : Width) : r.Aligned w := by
  cases r with
  | poff => exact absurd rfl hp
  | roff => exact absurd rfl hr
  | _ => cases w <;> rfl

theorem IoReg.addr_le (r : IoReg) : r.addr.toNat ≤ ioHi := by cases r <;> decide

theorem IoReg.ofAddr_addr (r : IoReg) : IoReg.ofAddr r.addr.toNat = some r := by cases r <;> rfl

theorem mmuRead_register {r : IoReg} {w : Width} (s : State) (h : r.Aligned w) :
    mmuRead r.addr w s = (w.low (ioValue s r), s) := by
  simp only [mmuRead_io r.addr_le h, ioRead, r.ofAddr_addr]

theorem mmuWrite_register {r : IoReg} {w : Width} (v : Word) (s : State) (h : r.Aligned w) :
    mmuWrite r.addr w v s = ioRegWrite r (w.low v) s := by
  simp only [mmuWrite_io r.addr_le h, ioWrite, r.ofAddr_addr]

/-- Settles O9: each register's value by `mmuRead_register`, cut to the width where it may not fit. -/
theorem ioRegistersRead : Obligations.IoRegistersRead := by
  intro w s
  have hread (r : IoReg) (hp : r ≠ .poff) (hr : r ≠ .roff) : mmuRead r.addr w s = (w.low (ioValue s r), s) :=
    mmuRead_register s (r.aligned_of_ne hp hr w)
  have hoff (r : IoReg) : mmuRead r.addr .narrow s = (Width.narrow.low (ioValue s r), s) :=
    mmuRead_register s r.aligned_narrow
  refine ⟨?pbase, ?poff, ?rbase, ?roff, ?swireq, ?out, ?ipr, ?crr, ?jv, ?cause, ?ra⟩
  case pbase => exact (hread .pbase nofun nofun).trans (by rw [ioValue, Width.low_half])
  case poff => exact (hoff .poff).trans (by rw [ioValue, Width.low_half])
  case rbase => exact (hread .rbase nofun nofun).trans (by rw [ioValue, Width.low_half])
  case roff => exact (hoff .roff).trans (by rw [ioValue, Width.low_half])
  case swireq => exact (hread .swireq nofun nofun).trans (by rw [ioValue, Width.low_zero])
  case out => exact (hread .out nofun nofun).trans (by rw [ioValue, Width.low_zero])
  case ipr => exact hread .ipr nofun nofun
  case crr => exact (hread .crr nofun nofun).trans (by rw [ioValue, Width.low_crr])
  case jv => exact hread .jv nofun nofun
  case cause => exact hread .cause nofun nofun
  case ra => exact hread .ra nofun nofun

/-- Settles O10: each register's write by `mmuWrite_register`. -/
theorem ioRegistersWrite : Obligations.IoRegistersWrite := by
  intro w v s
  have hwrite (r : IoReg) (hp : r ≠ .poff) (hr : r ≠ .roff) :
      mmuWrite r.addr w v s = ioRegWrite r (w.low v) s :=
    mmuWrite_register v s (r.aligned_of_ne hp hr w)
  have hoff (r : IoReg) : mmuWrite r.addr .narrow v s = ioRegWrite r (Width.narrow.low v) s :=
    mmuWrite_register v s r.aligned_narrow
  refine ⟨?pbase, ?poff, ?rbase, ?roff, ?swireq, ?out, ?ipr, ?crr, ?jv, ?cause, ?ra⟩
  case pbase => exact (hwrite .pbase nofun nofun).trans (by rw [ioRegWrite, Width.setWidth_16_low]; rfl)
  case poff => exact (hoff .poff).trans (by rw [ioRegWrite, Width.setWidth_16_low]; rfl)
  case rbase => exact (hwrite .rbase nofun nofun).trans (by rw [ioRegWrite, Width.setWidth_16_low]; rfl)
  case roff => exact (hoff .roff).trans (by rw [ioRegWrite, Width.setWidth_16_low]; rfl)
  case swireq =>
    refine (hwrite .swireq nofun nofun).trans ?_
    rw [ioRegWrite, raiseSoftwareInterrupt, genInt_eq_raised, genInt_cause, if_neg (by decide)]
    exact congrArg (raised · s) BitVec.zero_or
  case out => exact (hwrite .out nofun nofun).trans (by rw [ioRegWrite, Width.setWidth_8_low]; rfl)
  case ipr => exact hwrite .ipr nofun nofun
  case crr => exact hwrite .crr nofun nofun
  case jv => exact hwrite .jv nofun nofun
  case cause => exact hwrite .cause nofun nofun
  case ra => exact hwrite .ra nofun nofun

/-! ## A read after a write (R193) -/

/-- A stack control field takes a value below 2^16 whole. -/
theorem setWidth_16_32 {v : Word} (h : v.toNat < 0x10000) : (v.setWidth 16).setWidth 32 = v :=
  low_of_lt .narrow v h

/-- A register read at the width of its write returns what the register holds of the value. -/
theorem mmuRead_mmuWrite_register {r : IoReg} {w : Width} (v x : Word) (s : State) (h : r.Aligned w)
    (hv : w.low (ioValue (ioRegWrite r (w.low v) s) r) = x) :
    mmuRead r.addr w (mmuWrite r.addr w v s) = (x, mmuWrite r.addr w v s) := by
  rw [mmuRead_register _ h, mmuWrite_register v s h, hv]

theorem mmuRead_mmuWrite_memory {a : Word} {w : Width} (v : Word) {s : State} (hm : s.mem.wf)
    (h : InMemory s a w) : mmuRead a w (mmuWrite a w v s) = (w.low v, mmuWrite a w v s) := by
  obtain ⟨hlo, hhi, hal, hin⟩ := h
  have hval : BitVec.ofNat 32 (v.toNat % 2 ^ (8 * w.bytes)) = w.low v := by
    rw [← Width.toNat_low, BitVec.ofNat_toNat, BitVec.setWidth_eq]
  rw [mmuWrite_window hlo hhi, guardedWrite_inside v s hal hin, mmuRead_window hlo (by exact hhi),
    guardedRead_inside _ hal (by exact hin), State.setMem_mem, memRead_memWrite _ _ _ _ hm, hval]

/-- Settles O11: the memory by `mmuRead_mmuWrite_memory`, each register by `mmuRead_mmuWrite_register`. -/
theorem storeThenLoadReturnsValue : Obligations.StoreThenLoadReturnsValue := by
  refine fun a w v s hm => ⟨fun hin => mmuRead_mmuWrite_memory v hm hin, fun ha => ?sic, fun hv ha => ?stack⟩
  case sic =>
    rcases ha with rfl | rfl | rfl
    · exact mmuRead_mmuWrite_register (r := .jv) (w := .wide) v v s rfl rfl
    · exact mmuRead_mmuWrite_register (r := .cause) (w := .wide) v v s rfl rfl
    · exact mmuRead_mmuWrite_register (r := .ra) (w := .wide) v v s rfl rfl
  case stack =>
    have hfield : w.low (((w.low v).setWidth 16).setWidth 32) = v := by
      rw [Width.low_half, Width.setWidth_16_low, setWidth_16_32 hv]
    rcases ha with rfl | rfl | ⟨rfl | rfl, rfl⟩
    · exact mmuRead_mmuWrite_register v v s (IoReg.aligned_of_ne (r := .pbase) nofun nofun w) hfield
    · exact mmuRead_mmuWrite_register v v s (IoReg.aligned_of_ne (r := .rbase) nofun nofun w) hfield
    · exact mmuRead_mmuWrite_register (r := .poff) v v s rfl hfield
    · exact mmuRead_mmuWrite_register (r := .roff) v v s rfl hfield

end Sys2Proof.Machine
end

section
/-!
PROOFS. The stack engine (40_stack_engine.md). One slot in every state (`push16_slot`, `pop16_slot` and the
faulting accesses), a pop after its push (`pop16_of_slot`), and what `push`, `pop` and a keep `pop` do from the
state they start in (`push_top`, `pop_top`, `keep_top`), which the instructions are put together from.
-/

namespace Sys2Proof.Machine

/-! ## One slot (R130, R131, R133) -/

theorem slotWrite_misaligned {t : StackId} {o : Half} (h : Half) {s : State}
    (ho : (baseOf s t + o.toNat) % 2 ≠ 0) : slotWrite t o h s = raiseFault .align s :=
  guardedWrite_misaligned (w := .narrow) _ s ho

theorem slotWrite_outside {t : StackId} {o : Half} (h : Half) {s : State}
    (ho : (baseOf s t + o.toNat) % 2 = 0) (hi : s.params.memSize < baseOf s t + o.toNat + 2) :
    slotWrite t o h s = raiseFault .bounds s :=
  guardedWrite_outside (w := .narrow) _ s ho hi

theorem slotRead_misaligned {t : StackId} {o : Half} {s : State}
    (ho : (baseOf s t + o.toNat) % 2 ≠ 0) : slotRead t o s = (0, raiseFault .align s) := by
  have hr : guardedRead ((s.stack t).base.toNat + o.toNat) .narrow s = (0, raiseFault .align s) :=
    guardedRead_misaligned s ho
  simp only [slotRead, hr]
  rfl

theorem slotRead_outside {t : StackId} {o : Half} {s : State}
    (ho : (baseOf s t + o.toNat) % 2 = 0) (hi : s.params.memSize < baseOf s t + o.toNat + 2) :
    slotRead t o s = (0, raiseFault .bounds s) := by
  have hr : guardedRead ((s.stack t).base.toNat + o.toNat) .narrow s = (0, raiseFault .bounds s) :=
    guardedRead_outside s ho hi
  simp only [slotRead, hr]
  rfl

/-- A pop that has a slot to take: read it and zero it at the lowered offset (R133). -/
theorem pop16_eq {t : StackId} {s : State} (ho : 2 ≤ top s t) :
    pop16 t s = ((slotRead t (BitVec.ofNat 16 (top s t - 2)) (s.setOff t (BitVec.ofNat 16 (top s t - 2)))).1,
      slotWrite t (BitVec.ofNat 16 (top s t - 2)) 0
        (slotRead t (BitVec.ofNat 16 (top s t - 2)) (s.setOff t (BitVec.ofNat 16 (top s t - 2)))).2) := by
  have hs : (s.stack t).off - 2 = BitVec.ofNat 16 (top s t - 2) := half_sub_two _ ho
  unfold pop16
  rw [if_neg (by unfold top at ho; omega)]
  simp only [hs]

theorem toNat_ofNat_top_sub (s : State) (t : StackId) (n : Nat) :
    (BitVec.ofNat 16 (top s t - n)).toNat = top s t - n := by
  have h := top_lt s t
  exact off_ofNat _ (by omega)

/-- A slot written and zeroed with the same fault faults once (R14, R222). -/
theorem pop16_misaligned {t : StackId} {s : State} (ho : 2 ≤ top s t)
    (he : (baseOf s t + (top s t - 2)) % 2 ≠ 0) :
    pop16 t s = (0, (raiseFault .align s).setOff t (BitVec.ofNat 16 (top s t - 2))) := by
  have hv := toNat_ofNat_top_sub s t 2
  rw [pop16_eq ho, slotRead_misaligned (by simpa [hv] using he), slotWrite_misaligned _ (by simpa [hv] using he)]
  simp only [raiseFault_setOff]
  rfl

theorem pop16_outside {t : StackId} {s : State} (ho : 2 ≤ top s t)
    (he : (baseOf s t + (top s t - 2)) % 2 = 0) (hi : s.params.memSize < baseOf s t + (top s t - 2) + 2) :
    pop16 t s = (0, (raiseFault .bounds s).setOff t (BitVec.ofNat 16 (top s t - 2))) := by
  have hv := toNat_ofNat_top_sub s t 2
  rw [pop16_eq ho, slotRead_outside (by simpa [hv] using he) (by simpa [hv] using hi),
    slotWrite_outside _ (by simpa [hv] using he) (by simpa [hv] using hi)]
  simp only [raiseFault_setOff]
  rfl

theorem toNat_half (h : Half) : (h.setWidth 32).toNat = h.toNat := by
  have := h.isLt
  rw [BitVec.toNat_setWidth]
  omega

/-- A slot pushed, byte by byte. -/
theorem push16_slot (t : StackId) (h : Half) {s : State} (hm : s.mem.wf) (ho : top s t < stackBytes)
    (he : (baseOf s t + top s t) % 2 = 0) (hi : baseOf s t + top s t + 2 ≤ s.params.memSize) :
    ∃ m, push16 t h s = .cont () ((s.setOff t (BitVec.ofNat 16 (top s t + 2))).setMem m) ∧ Memory.wf m ∧
      ∀ a, m.read a = if InSlots s t (top s t) (top s t + 2) a
        then byteOf (h.setWidth 32) (a - (baseOf s t + top s t)) else s.mem.read a := by
  refine ⟨_, push16_placed t h s ho he hi, memWrite_wf _ _ _ _ hm, fun a => ?_⟩
  rw [read_memWrite 2 _ _ _ _ hm, byteOf, toNat_half, Nat.add_assoc]

/-- Settles O12: the four cases of R131. -/
theorem pushSlotOutcome : Obligations.PushSlotOutcome := by
  refine fun t h s hm => ⟨fun ho => push16_full t h s ho, fun ho he => ?misaligned, fun ho he hi => ?outside,
    fun ho he hi => ?inside⟩
  case misaligned => rw [push16_room t h s ho, slotWrite_misaligned h he, raiseFault_align]
  case outside => rw [push16_room t h s ho, slotWrite_outside h he hi, raiseFault_bounds]
  case inside =>
    obtain ⟨m, hpush, -, hread⟩ := push16_slot t h hm ho he hi
    exact ⟨m, hpush, hread⟩

/-- Settles O13: the four cases of R133. -/
theorem popSlotOutcome : Obligations.PopSlotOutcome := by
  refine fun t s hm => ⟨fun ho => pop16_empty t s ho, fun ho he => pop16_misaligned ho he,
    fun ho he hi => pop16_outside ho he hi,
    fun ho he hi => ⟨_, _, pop16_placed t s ho he hi, fun j hj => ?value, fun a => ?zeroed⟩⟩
  case value =>
    have hlt := memRead_lt 2 s.mem (baseOf s t + (top s t - 2))
    rw [byteOf, toNat_half, BitVec.toNat_ofNat, Nat.mod_eq_of_lt hlt, memRead_byte _ _ _ _ hj]
  case zeroed =>
    rw [read_memWrite 2 _ _ _ _ hm, Nat.zero_div, Nat.add_assoc, Nat.sub_add_cancel ho]
    rfl

/-! ## A pop after its push (R139) -/

/-- A half from its two bytes. -/
theorem ofNat_memRead_of_bytes {m : Memory} {i : Nat} {h : Half}
    (hb : ∀ j, j < 2 → m.read (i + j) = byteOf (h.setWidth 32) j) : BitVec.ofNat 16 (memRead m i 2) = h := by
  have hv := memRead_eq 2 m i h.toNat fun j hj => by rw [hb j hj, byteOf, toNat_half]
  apply BitVec.eq_of_toNat_eq
  rw [hv, BitVec.toNat_ofNat]
  have := h.isLt
  omega

/-- The slot just above the depth of `s`, popped in a state that is one slot deeper and holds `h` there: back to
`s`, with the slot zeroed. -/
theorem pop16_of_slot {t : StackId} {h : Half} {s : State} {m : Memory} (hm : m.wf) (ho : top s t < stackBytes)
    (he : (baseOf s t + top s t) % 2 = 0) (hi : baseOf s t + top s t + 2 ≤ s.params.memSize)
    (hb : ∀ j, j < 2 → m.read (baseOf s t + top s t + j) = byteOf (h.setWidth 32) j) :
    ∃ m', pop16 t ((s.setOff t (BitVec.ofNat 16 (top s t + 2))).setMem m) = (h, s.setMem m') ∧ Memory.wf m' ∧
      ∀ a, m'.read a = if InSlots s t (top s t) (top s t + 2) a then 0 else m.read a := by
  have htop : top ((s.setOff t (BitVec.ofNat 16 (top s t + 2))).setMem m) t = top s t + 2 := by
    rw [top_setMem, top_setOff, off_ofNat _ (by unfold stackBytes at ho; omega)]
  have hpop := pop16_placed t ((s.setOff t (BitVec.ofNat 16 (top s t + 2))).setMem m)
  simp only [htop, baseOf_setMem, baseOf_setOff, State.setMem_params, State.setOff_params, State.setMem_mem,
    State.setOff_setMem, State.setOff_setOff, State.setMem_setMem, Nat.add_sub_cancel,
    setOff_top_self s t (top s t) rfl, ofNat_memRead_of_bytes hb] at hpop
  refine ⟨_, hpop (by omega) he hi, memWrite_wf _ _ _ _ hm, fun a => ?_⟩
  rw [read_memWrite 2 _ _ _ _ hm, Nat.zero_div, Nat.add_assoc]
  rfl

/-- A pushed slot popped at once: the value, and the state as it was with the slot's bytes zero. -/
theorem pop16_push16 (t : StackId) (h : Half) {s : State} (hm : s.mem.wf) (ho : top s t < stackBytes)
    (he : (baseOf s t + top s t) % 2 = 0) (hi : baseOf s t + top s t + 2 ≤ s.params.memSize) :
    ∃ u m, push16 t h s = .cont () u ∧ pop16 t u = (h, s.setMem m) ∧ Memory.wf m ∧
      ∀ a, m.read a = if InSlots s t (top s t) (top s t + 2) a then 0 else s.mem.read a := by
  obtain ⟨m, hpush, hwf, hread⟩ := push16_slot t h hm ho he hi
  obtain ⟨m', hpop, hwf', hread'⟩ := pop16_of_slot (h := h) hwf ho he hi fun j hj => by
    rw [hread, if_pos (by unfold InSlots; omega), Nat.add_sub_cancel_left]
  refine ⟨_, m', hpush, hpop, hwf', fun a => ?_⟩
  rw [hread', hread]
  split <;> rfl

/-- The same for 32 bits: the high half is pushed above the low half and popped before it. -/
theorem popValue_push_wide (t : StackId) (v : Word) {s : State} (hm : s.mem.wf) (h2 : top s t % 2 = 0)
    (ho : top s t + 4 ≤ stackBytes) (he : (baseOf s t + top s t) % 2 = 0)
    (hi : baseOf s t + top s t + 4 ≤ s.params.memSize) :
    ∃ u m, push t .wide v s = .cont () u ∧ popValue t .wide u = (v, s.setMem m) ∧
      ∀ a, m.read a = if InSlots s t (top s t) (top s t + 4) a then 0 else s.mem.read a := by
  obtain ⟨m1, hlo, hwf1, hread1⟩ := push16_slot t (v.extractLsb' 0 16) hm (by omega) he (by omega)
  have htop : top ((s.setOff t (BitVec.ofNat 16 (top s t + 2))).setMem m1) t = top s t + 2 := by
    rw [top_setMem, top_setOff, off_ofNat _ (by unfold stackBytes at ho; omega)]
  have hhi := pop16_push16 t (v.extractLsb' 16 16) (s := (s.setOff t (BitVec.ofNat 16 (top s t + 2))).setMem m1) hwf1
  simp only [htop, baseOf_setMem, baseOf_setOff, State.setMem_params, State.setOff_params, State.setMem_mem,
    State.setMem_setMem] at hhi
  obtain ⟨u, m2, hpush, hpop, hwf2, hread2⟩ := hhi (by omega) (by omega) (by omega)
  obtain ⟨m3, hpop', -, hread3⟩ := pop16_of_slot (h := v.extractLsb' 0 16) hwf2 (by omega) he (by omega)
    fun j hj => by
      rw [hread2, if_neg (by unfold InSlots; simp only [baseOf_setMem, baseOf_setOff]; omega), hread1,
        if_pos (by unfold InSlots; omega), Nat.add_sub_cancel_left]
  refine ⟨u, m3, ?push, ?pop, fun a => ?bytes⟩
  case push =>
    simp only [push, hlo, Flow.bind_cont]
    exact hpush
  case pop =>
    simp only [popValue, hpop, hpop']
    exact congrArg (·, s.setMem m3) (wordOfHalves_split v)
  case bytes =>
    rw [hread3, hread2, hread1]
    simp only [InSlots, baseOf_setMem, baseOf_setOff]
    grind

theorem setWidth_low_half (v : Word) : (v.extractLsb' 0 16 : Half).setWidth 32 = Width.narrow.low v := by
  apply BitVec.eq_of_toNat_eq
  rw [toNat_half, Width.toNat_low, BitVec.extractLsb'_toNat]
  rfl

/-- Settles O14: one slot by `pop16_push16`, two by `popValue_push_wide`. -/
theorem pushThenPopReturnsValue : Obligations.PushThenPopReturnsValue := by
  intro t w v s hm h2 ho he hi
  cases w with
  | narrow =>
    obtain ⟨u, m, hpush, hpop, -, hread⟩ := pop16_push16 t (v.extractLsb' 0 16) hm
      (by simp only [Width.bytes] at ho; unfold stackBytes; omega) he hi
    refine ⟨u, m, hpush, ?_, hread⟩
    rw [pop_discard]
    simp only [popValue, hpop]
    rw [setWidth_low_half]
  | wide =>
    obtain ⟨u, m, hpush, hpop, hread⟩ := popValue_push_wide t v hm h2 ho he hi
    exact ⟨u, m, hpush, by rw [pop_discard, hpop]; rfl, hread⟩

/-! ## `push`, `pop` and keep `pop` from the state they start in (R134 to R136) -/

theorem setOff_setMem_self (s : State) (t : StackId) : (s.setOff t (BitVec.ofNat 16 (top s t))).setMem s.mem = s := by
  rw [setOff_top_self s t _ rfl, State.setMem_self]

section
variable (t : StackId) (w : Width) (s : State) (hm : s.mem.wf) (hs : StackSound t s)
include hm hs

theorem push_top (v : Word) (hk : top s t + w.bytes ≤ 256) :
    ∃ m, push t w v s = .cont () ((s.setOff t (BitVec.ofNat 16 (top s t + w.bytes))).setMem m) ∧ Memory.wf m ∧
      (∀ u : State, baseOf u t = baseOf s t → u.params = s.params →
        (∀ a, InSlots s t (top s t) (top s t + w.bytes) a → u.mem.read a = m.read a) →
          copy u t (top s t + w.bytes) w = w.low v) ∧
      ∀ a, ¬ InSlots s t (top s t) (top s t + w.bytes) a → m.read a = s.mem.read a := by
  have h := push_at t w v s (top s t) s.mem hm hs hs.2.1 hk
  rwa [setOff_setMem_self] at h

theorem pop_top :
    ∃ m, pop t w false s = .cont (copy s t (top s t) w)
        ((s.setOff t (BitVec.ofNat 16 (top s t - w.bytes))).setMem m) ∧ Memory.wf m ∧
      ∀ a, m.read a = if InSlots s t (top s t - w.bytes) (top s t) a then 0 else s.mem.read a :=
  pop_discard_sound t w s hm hs

theorem keep_top :
    ∃ m, pop t w true s = .cont (copy s t (top s t) w)
        ((s.setOff t (BitVec.ofNat 16 (top s t - w.bytes + w.bytes))).setMem m) ∧ Memory.wf m ∧
      (∀ u : State, baseOf u t = baseOf s t → u.params = s.params →
        (∀ a, InSlots s t (top s t - w.bytes) (top s t - w.bytes + w.bytes) a → u.mem.read a = m.read a) →
          copy u t (top s t - w.bytes + w.bytes) w = copy s t (top s t) w) ∧
      (w.bytes ≤ top s t → m = s.mem) ∧
      ∀ a, ¬ InSlots s t (top s t - w.bytes) (top s t - w.bytes + w.bytes) a → m.read a = s.mem.read a := by
  have h := keep_at t w s (top s t) s.mem hm hs hs.2.1 hs.2.2.1
  rwa [setOff_setMem_self, State.setMem_self] at h

/-- A keep pop of a value the stack holds changes nothing at all (R136). -/
theorem keep_held (hw : w.bytes ≤ top s t) : pop t w true s = .cont (copy s t (top s t) w) s := by
  obtain ⟨m, hpop, -, -, hkept, -⟩ := keep_top t w s hm hs
  rw [hpop, hkept hw, Nat.sub_add_cancel hw, setOff_setMem_self]

end

/-- A keep pop in the middle of an instruction, of a value the stack holds there, changes nothing. -/
theorem keep_at_held {t : StackId} {w : Width} {s : State} {k : Nat} {m : Memory} (hm : m.wf)
    (hs : StackSound t s) (h2 : k % 2 = 0) (hw : w.bytes ≤ k) (hk : k ≤ 256) :
    pop t w true ((s.setOff t (BitVec.ofNat 16 k)).setMem m) =
      .cont (copy (s.setMem m) t k w) ((s.setOff t (BitVec.ofNat 16 k)).setMem m) := by
  obtain ⟨m', hpop, -, -, hkept, -⟩ := keep_at t w s k m hm hs h2 hk
  rw [hpop, hkept hw, Nat.sub_add_cancel hw]

/-- A pop with the instruction's own `KEEP`, from `s` to depth `e`: what it leaves readable, and the bytes. -/
theorem pop_either {t : StackId} {w : Width} {keep : Bool} {s : State} {e : Nat} (hm : s.mem.wf)
    (hs : StackSound t s) (he : e = if keep then top s t - w.bytes + w.bytes else top s t - w.bytes) :
    ∃ m, pop t w keep s = .cont (copy s t (top s t) w) ((s.setOff t (BitVec.ofNat 16 e)).setMem m) ∧
      Memory.wf m ∧
      (keep = true → ∀ u : State, baseOf u t = baseOf s t → u.params = s.params →
        (∀ a, InSlots s t (top s t - w.bytes) e a → u.mem.read a = m.read a) →
          copy u t e w = copy s t (top s t) w) ∧
      (keep = true → ∀ a, ¬ InSlots s t (top s t - w.bytes) e a → m.read a = s.mem.read a) ∧
      (keep = false → ∀ a, m.read a = if InSlots s t e (top s t) a then 0 else s.mem.read a) := by
  subst he
  cases keep with
  | false =>
    obtain ⟨m, hpop, hwf, hread⟩ := pop_top t w s hm hs
    exact ⟨m, hpop, hwf, nofun, nofun, fun _ => hread⟩
  | true =>
    obtain ⟨m, hpop, hwf, hcopy, -, hframe⟩ := keep_top t w s hm hs
    exact ⟨m, hpop, hwf, fun _ => hcopy, fun _ => hframe, nofun⟩

/-- The depth `e` that a pop leaves, with `KEEP` or without. -/
theorem pop_depth {t : StackId} {w : Width} {keep : Bool} {s : State} {e : Nat} (hs : StackSound t s)
    (he : e = if keep then top s t - w.bytes + w.bytes else top s t - w.bytes) :
    e % 2 = 0 ∧ e ≤ 256 ∧ top s t - w.bytes ≤ e ∧ top s t ≤ e + w.bytes ∧ (keep = false → e + w.bytes ≤ 256) := by
  obtain ⟨-, heven, hle, -⟩ := hs
  unfold stackBytes at hle
  have hw := Width.bytes_cases w
  subst he
  cases keep with
  | false =>
    rw [if_neg (by decide)]
    exact ⟨by omega, by omega, by omega, by omega, fun _ => by omega⟩
  | true =>
    rw [if_pos rfl]
    exact ⟨by omega, by omega, by omega, by omega, nofun⟩

/-- A push onto a stack at its bound stops the machine (R131). -/
theorem push_full {t : StackId} (w : Width) (v : Word) {s : State} (h : 256 ≤ top s t) :
    push t w v s = .stop { s with run := .fatal (.stackOverflow t s.ip) } := by
  cases w with
  | narrow => exact push16_full t _ s h
  | wide => simp only [push, push16_full t _ s h, Flow.bind_stop]; rfl

/-- The low half of a value has its two low bytes. -/
theorem byteOf_low_half (v : Word) {j : Nat} (hj : j < 2) :
    byteOf ((v.extractLsb' 0 16 : Half).setWidth 32) j = byteOf v j := by
  have hlow : (v.extractLsb' 0 16 : Half).toNat = v.toNat % 2 ^ 16 := by simp
  apply BitVec.eq_of_toNat_eq
  simp only [byteOf, toNat_half, hlow, BitVec.toNat_ofNat]
  interval_cases j <;> omega

/-- A 32-bit push at the last slot writes its low half there and stops at its high half (R132). -/
theorem push_wide_last (t : StackId) (v : Word) {s : State} (hm : s.mem.wf) (hs : StackSound t s)
    (ho : top s t = 254) :
    ∃ m, push t .wide v s =
        .stop { (s.setOff t 256).setMem m with run := .fatal (.stackOverflow t s.ip) } ∧
      ∀ a, m.read a = if InSlots s t 254 256 a then byteOf v (a - (baseOf s t + 254)) else s.mem.read a := by
  obtain ⟨hb, -, -, hin⟩ := hs
  unfold stackBytes at hin
  obtain ⟨m, hlo, -, hread⟩ := push16_slot t (v.extractLsb' 0 16) hm (by rw [ho]; decide) (by omega) (by omega)
  rw [ho] at hlo hread
  refine ⟨m, ?stop, fun a => ?bytes⟩
  case stop =>
    have hfull : 256 ≤ top ((s.setOff t 256).setMem m) t := by
      rw [top_setMem, top_setOff]
      exact Nat.le_refl _
    simp only [push, hlo, Flow.bind_cont]
    refine (push16_full t _ _ hfull).trans ?_
    simp only [fatalStop, State.setMem_ip, State.setOff_ip]
  case bytes =>
    rw [hread]
    split
    next ha => rw [byteOf_low_half v (by unfold InSlots at ha; omega)]
    · rfl

/-- Settles O15, by `keep_top`. -/
theorem keepPopPeeks : Obligations.KeepPopPeeks := by
  intro t w s hm hs
  obtain ⟨m, hpop, -, hcopy, hkept, hframe⟩ := keep_top t w s hm hs
  obtain ⟨-, -, hle, -⟩ := hs
  have htop : top ((s.setOff t (BitVec.ofNat 16 (top s t - w.bytes + w.bytes))).setMem m) t =
      top s t - w.bytes + w.bytes := by
    rw [top_setMem, top_setOff, off_ofNat]
    rcases Width.bytes_cases w with hw | hw <;> unfold stackBytes at hle <;> omega
  refine ⟨m, hpop, ?peek, hframe, fun hw => ?same⟩
  case peek =>
    rw [htop]
    exact hcopy _ (by simp) (by simp) fun a _ => rfl
  case same => rw [hkept hw, Nat.sub_add_cancel hw, setOff_setMem_self]

/-- Settles O16, by `push_wide_last`. -/
theorem widePushAtLastSlotOverflows : Obligations.WidePushAtLastSlotOverflows :=
  fun t v _ hm hb hin ho =>
    push_wide_last t v hm ⟨hb, by rw [ho], by rw [ho]; decide, hin⟩ ho

/-- Settles O17: `copy` at `i` is the top value of the stack with its offset set to `i`. -/
theorem copyIsWhatPopReturns : Obligations.CopyIsWhatPopReturns := by
  intro t i w s hm hs hi
  obtain ⟨m, hpop, -⟩ := pop_top t w (s.setOff t (BitVec.ofNat 16 i)) (by rwa [State.setOff_mem]) hs
  rw [top_setOff, off_ofNat i (by omega)] at hpop
  have hcopy : copy (s.setOff t (BitVec.ofNat 16 i)) t i w = copy s t i w :=
    copy_congr (by simp) (by simp) fun a _ => by rw [State.setOff_mem]
  exact ⟨_, by rw [hpop, hcopy]⟩

end Sys2Proof.Machine
end

section
/-!
PROOFS. The stack instructions (42_stack_ops.md), each put together from `push_top`, `pop_top`, `keep_top` and
their forms at an offset, `push_at` and `pop_at`.
-/

namespace Sys2Proof.Machine

/-! ## `exec`, one equation per instruction -/

theorem exec_nop (f : Flags) (s : State) : exec (.nop f) s = execNop f s := rfl
theorem exec_lit (f : Flags) (imm : Word) (s : State) : exec (.lit f imm) s = execLit f imm s := rfl
theorem exec_dup (f : Flags) (s : State) : exec (.dup f) s = execDup f s := rfl
theorem exec_ovr (f : Flags) (s : State) : exec (.ovr f) s = execOver f s := rfl
theorem exec_str (f : Flags) (s : State) : exec (.str f) s = execStr f s := rfl
theorem exec_load (f : Flags) (s : State) : exec (.load f) s = execLoad f s := rfl
theorem exec_push (f : Flags) (s : State) : exec (.push f) s = execPush f s := rfl
theorem exec_drop (f : Flags) (s : State) : exec (.drop f) s = execDrop f s := rfl
theorem exec_jsr (f : Flags) (s : State) : exec (.jsr f) s = execJsr f s := rfl
theorem exec_cmp (f : Flags) (s : State) : exec (.cmp f) s = execCmp f s := rfl
theorem exec_halt (f : Flags) (s : State) : exec (.halt f) s = execHalt f s := rfl

/-! ## Two stacks -/

@[simp] theorem top_setOff_of_other (s : State) (t : StackId) (o : Half) :
    top (s.setOff t.other o) t = top s t := by cases t <;> rfl

/-- Slots of the two stacks share no byte. -/
theorem not_inSlots_other {s : State} {t : StackId} (h : StacksApart s) {lo hi lo' hi' a : Nat}
    (hhi : hi ≤ 256) (hhi' : hi' ≤ 256) (ha : InSlots s t lo hi a) : ¬ InSlots s t.other lo' hi' a := by
  unfold StacksApart InSlots stackBytes at *
  cases t <;> simp only [StackId.other] <;> omega

/-- A change of one stack's depth and of the memory leaves the other stack readable. -/
theorem StackSound.other_at {s : State} {t : StackId} (h : StackSound t.other s) (m : Memory) (o : Half) :
    StackSound t.other ((s.setOff t o).setMem m) ∧ top ((s.setOff t o).setMem m) t.other = top s t.other := by
  have ht : top ((s.setOff t o).setMem m) t.other = top s t.other := by rw [top_setMem, top_setOff_other]
  refine ⟨?_, ht⟩
  rw [StackSound, ht, baseOf_setMem, baseOf_setOff, State.setMem_params, State.setOff_params]
  exact h

/-! ## Slots as `copy` shows them -/

theorem StackSound.top_le {s : State} {t : StackId} (h : StackSound t s) : top s t ≤ 256 := h.2.2.1

theorem top_at (s : State) (t : StackId) (m : Memory) {k : Nat} (hk : k ≤ 256) :
    top ((s.setOff t (BitVec.ofNat 16 k)).setMem m) t = k := by
  rw [top_setMem, top_setOff, off_ofNat _ (by omega)]

/-- The bytes of the slots whose value `copy` shows. -/
theorem read_of_copy_slot {s : State} {t : StackId} {k x : Nat} {w : Width} {v : Word}
    (hi : baseOf s t + (k + w.bytes) ≤ s.params.memSize) (h : copy s t (k + w.bytes) w = v)
    (hx : InSlots s t k (k + w.bytes) x) : s.mem.read x = byteOf v (x - (baseOf s t + k)) := by
  obtain ⟨hx1, hx2⟩ := hx
  have hj := read_of_copy (j := x - (baseOf s t + k)) (Nat.le_add_left w.bytes k) hi (by omega)
  rwa [h, Nat.add_sub_cancel, show baseOf s t + k + (x - (baseOf s t + k)) = x by omega] at hj

/-- Where `copy` shows the same value, the memory holds the same bytes. -/
theorem read_eq_of_copy_eq {s u : State} {t : StackId} {i x : Nat} {w : Width} (hb : baseOf u t = baseOf s t)
    (hp : u.params = s.params) (hw : w.bytes ≤ i) (hi : baseOf s t + i ≤ s.params.memSize)
    (h : copy u t i w = copy s t i w) (hx : InSlots s t (i - w.bytes) i x) : u.mem.read x = s.mem.read x := by
  obtain ⟨k, rfl⟩ := Nat.exists_eq_add_of_le' hw
  rw [Nat.add_sub_cancel] at hx
  have hu := read_of_copy_slot (by rwa [hb, hp]) h (by rwa [InSlots, hb])
  rw [hb] at hu
  rw [hu, read_of_copy_slot hi rfl hx]

/-! ## Nop, Lit -/

/-- Settles O18. -/
theorem nopChangesNothing : Obligations.NopChangesNothing := fun f s => exec_nop f s

/-- A well-formed immediate is its own low part. -/
theorem low_of_immFits {f : Flags} {imm : Word} (h : immFits f imm = true) : f.width.low imm = imm := by
  apply low_of_lt
  unfold immFits Flags.width at *
  cases hs : f.short with
  | false => simpa [hs, Width.bytes] using h
  | true => exact imm.isLt

/-- Settles O19, by `push_top`. -/
theorem litPushesImmediate : Obligations.LitPushesImmediate := by
  intro f imm s hwf hm hs hroom
  obtain ⟨m, hpush, -, hcopy, hframe⟩ := push_top (selected f) f.width s hm hs imm hroom
  refine ⟨m, ?next, ?value, hframe⟩
  case next => rw [exec_lit, execLit, hpush]; rfl
  case value =>
    rw [top_at s _ m hroom, hcopy _ (by simp) (by simp) fun a _ => rfl]
    exact low_of_immFits hwf

/-- Settles O20, by `push_full`. -/
theorem litOnFullStackOverflows : Obligations.LitOnFullStackOverflows := by
  intro f imm s hfull
  rw [exec_lit, execLit, push_full f.width imm hfull]
  rfl

/-! ## Dup -/

/-- Settles O21: `keep_top` on the source, then `push_top` on the other stack, whose slots lie apart. -/
theorem dupCopiesAcrossStacks : Obligations.DupCopiesAcrossStacks := by
  intro f s hm hs hs' hapart hroom
  have hle := hs.top_le
  have hn := Width.bytes_cases f.width
  obtain ⟨m1, hpop, hwf1, hcopy1, hkept, hframe1⟩ := keep_top (selected f) f.width s hm hs
  obtain ⟨hs1, htop1⟩ := hs'.other_at m1
    (BitVec.ofNat 16 (top s (selected f) - f.width.bytes + f.width.bytes))
  obtain ⟨m, hpush, -, hcopy, hframe⟩ := push_top (selected f).other f.width _ hwf1 hs1
    (copy s (selected f) (top s (selected f)) f.width) (by rw [htop1]; exact hroom)
  simp only [htop1, InSlots, baseOf_setMem, baseOf_setOff, State.setOff_setMem, State.setMem_setMem,
    State.setMem_mem, State.setMem_params, State.setOff_params] at hpush hcopy hframe
  have hsource : ∀ a, InSlots s (selected f) (top s (selected f) - f.width.bytes)
      (top s (selected f) - f.width.bytes + f.width.bytes) a → m.read a = m1.read a := fun a ha =>
    hframe a (not_inSlots_other hapart (by omega) hroom ha)
  refine ⟨m, ?next, ?pushed, ?source, fun hw => ?depth, fun a ha ha' => ?frame⟩
  case next => simp only [exec_dup, execDup, hpop, Flow.bind_cont, hpush, Flow.outcome_cont]
  case pushed =>
    rw [top_at _ _ m hroom, hcopy _ (by simp) (by simp) fun a _ => rfl, copy_low]
  case source =>
    rw [top_setMem, top_setOff_of_other, top_setOff, off_ofNat _ (by omega)]
    exact hcopy1 _ (by simp) (by simp) hsource
  case depth =>
    rw [top_setMem, top_setOff_of_other, top_setOff, off_ofNat _ (by omega), Nat.sub_add_cancel hw]
  case frame => rw [hframe a ha', hframe1 a ha]

/-- Settles O22: the peek changes nothing (`keep_held`), the push stops (`push_full`). -/
theorem dupOntoFullStackOverflows : Obligations.DupOntoFullStackOverflows := by
  intro f s hm hs hheld hfull
  rw [exec_dup, execDup, keep_held (selected f) f.width s hm hs hheld, Flow.bind_cont, push_full _ _ hfull]
  rfl

/-! ## Over -/

/-- `Over` on a readable stack, its memory in canonical form. -/
theorem exec_ovr_sound (f : Flags) (s : State) (hm : s.mem.wf) (hs : StackSound (selected f) s) :
    ∃ m, Memory.wf m ∧
      let t := selected f
      let n := f.width.bytes
      let b := top s t - n - n - n
      let u := (s.setOff t (BitVec.ofNat 16 (b + n + n + n))).setMem m
      exec (.ovr f) s = .next u ∧
      copy u t (b + n + n + n) f.width = copy s t (top s t - n) f.width ∧
      copy u t (b + n + n) f.width = copy s t (top s t) f.width ∧
      copy u t (b + n) f.width = copy s t (top s t - n - n) f.width ∧
      ∀ a, ¬ InSlots s t b (b + n + n + n) a → m.read a = s.mem.read a := by
  have hle := hs.top_le
  have heven := hs.2.1
  simp only [exec_ovr, execOver]
  generalize selected f = t at *
  generalize f.width = w at *
  have hn := Width.bytes_cases w
  obtain ⟨m1, hpop1, hwf1, hread1⟩ := pop_top t w s hm hs
  obtain ⟨m2, hpop2, hwf2, hread2⟩ := pop_at t w s (top s t - w.bytes) m1 hwf1 hs (by omega) (by omega)
  obtain ⟨m3, hpop3, hwf3, hread3⟩ :=
    pop_at t w s (top s t - w.bytes - w.bytes) m2 hwf2 hs (by omega) (by omega)
  have hv1 : copy (s.setMem m1) t (top s t - w.bytes) w = copy s t (top s t - w.bytes) w :=
    copy_setMem_congr fun a ha => by rw [hread1, if_neg (by unfold InSlots at *; omega)]
  have hv2 : copy (s.setMem m2) t (top s t - w.bytes - w.bytes) w =
      copy s t (top s t - w.bytes - w.bytes) w :=
    copy_setMem_congr fun a ha => by
      rw [hread2, if_neg (by unfold InSlots at *; omega), hread1, if_neg (by unfold InSlots at *; omega)]
  rw [hv1] at hpop2
  rw [hv2] at hpop3
  generalize hb : top s t - w.bytes - w.bytes - w.bytes = b at *
  obtain ⟨m4, hpush4, hwf4, hcopy4, hframe4⟩ :=
    push_at t w (copy s t (top s t - w.bytes - w.bytes) w) s b m3 hwf3 hs (by omega) (by omega)
  obtain ⟨m5, hpush5, hwf5, hcopy5, hframe5⟩ :=
    push_at t w (copy s t (top s t) w) s (b + w.bytes) m4 hwf4 hs (by omega) (by omega)
  obtain ⟨m6, hpush6, hwf6, hcopy6, hframe6⟩ :=
    push_at t w (copy s t (top s t - w.bytes) w) s (b + w.bytes + w.bytes) m5 hwf5 hs (by omega) (by omega)
  refine ⟨m6, hwf6, ?next, ?first, ?second, ?third, fun a ha => ?frame⟩
  case next =>
    simp only [hpop1, hpop2, hpop3, hpush4, hpush5, hpush6, Flow.bind_cont, Flow.outcome_cont]
  case first => rw [hcopy6 _ (by simp) (by simp) fun a _ => rfl, copy_low]
  case second =>
    rw [hcopy5 _ (by simp) (by simp) fun a ha => ?_, copy_low]
    exact hframe6 a (by unfold InSlots at *; omega)
  case third =>
    rw [hcopy4 _ (by simp) (by simp) fun a ha => ?_, copy_low]
    exact (hframe6 a (by unfold InSlots at *; omega)).trans (hframe5 a (by unfold InSlots at *; omega))
  case frame =>
    unfold InSlots at *
    rw [hframe6 a (by omega), hframe5 a (by omega), hframe4 a (by omega), hread3, if_neg (by omega), hread2,
      if_neg (by omega), hread1, if_neg (by omega)]

/-- Settles O23, by `exec_ovr_sound`. -/
theorem overExchangesTopTwo : Obligations.OverExchangesTopTwo := by
  intro f s hm hs
  obtain ⟨m, -, h⟩ := exec_ovr_sound f s hm hs
  exact ⟨m, h⟩

/-- `Over` on a stack that holds three values: the depth stays. -/
theorem exec_ovr_held (f : Flags) (s : State) (hm : s.mem.wf) (hs : StackSound (selected f) s)
    (h3 : 3 * f.width.bytes ≤ top s (selected f)) :
    ∃ m, Memory.wf m ∧
      let t := selected f
      let n := f.width.bytes
      exec (.ovr f) s = .next (s.setMem m) ∧
      copy (s.setMem m) t (top s t) f.width = copy s t (top s t - n) f.width ∧
      copy (s.setMem m) t (top s t - n) f.width = copy s t (top s t) f.width ∧
      copy (s.setMem m) t (top s t - n - n) f.width = copy s t (top s t - n - n) f.width ∧
      ∀ a, ¬ InSlots s t (top s t - n - n - n) (top s t) a → m.read a = s.mem.read a := by
  have h := exec_ovr_sound f s hm hs
  simp only [show top s (selected f) - f.width.bytes - f.width.bytes - f.width.bytes + f.width.bytes =
      top s (selected f) - f.width.bytes - f.width.bytes by omega,
    show top s (selected f) - f.width.bytes - f.width.bytes + f.width.bytes =
      top s (selected f) - f.width.bytes by omega,
    show top s (selected f) - f.width.bytes + f.width.bytes = top s (selected f) by omega,
    setOff_top_self s (selected f) _ rfl] at h
  exact h

/-- Settles O24: the second `Over` puts the three values back, so every byte is as before. -/
theorem overTwiceIsIdentity : Obligations.OverTwiceIsIdentity := by
  intro f s hm hs h3
  have hle := hs.top_le
  have hin : baseOf s (selected f) + 256 ≤ s.params.memSize := hs.2.2.2
  obtain ⟨m, hwf, hexec, hc1, hc2, hc3, hframe⟩ := exec_ovr_held f s hm hs h3
  have hsu : StackSound (selected f) (s.setMem m) := by
    rw [StackSound, top_setMem, baseOf_setMem, State.setMem_params]
    exact hs
  obtain ⟨k, hwfk, hexec', hc1', hc2', hc3', hframe'⟩ :=
    exec_ovr_held f (s.setMem m) hwf hsu (by rw [top_setMem]; exact h3)
  simp only [top_setMem, InSlots, baseOf_setMem, State.setMem_mem, State.setMem_setMem] at *
  refine ⟨s.setMem m, hexec, ?_⟩
  have hmem : k = s.mem := by
    refine Memory.eq_of_read hwfk hm fun a => ?_
    have hslot {i : Nat} (hw : f.width.bytes ≤ i) (hi : i ≤ 256)
        (hc : copy (s.setMem k) (selected f) i f.width = copy s (selected f) i f.width)
        (ha : InSlots s (selected f) (i - f.width.bytes) i a) : k.read a = s.mem.read a :=
      read_eq_of_copy_eq (u := s.setMem k) (by simp) (by simp) hw (by omega) hc ha
    by_cases ha1 : InSlots s (selected f) (top s (selected f) - f.width.bytes) (top s (selected f)) a
    · exact hslot (by omega) hle (hc1'.trans hc2) ha1
    by_cases ha2 : InSlots s (selected f) (top s (selected f) - f.width.bytes - f.width.bytes)
        (top s (selected f) - f.width.bytes) a
    · exact hslot (by omega) (by omega) (hc2'.trans hc1) ha2
    by_cases ha3 : InSlots s (selected f) (top s (selected f) - f.width.bytes - f.width.bytes - f.width.bytes)
        (top s (selected f) - f.width.bytes - f.width.bytes) a
    · exact hslot (by omega) (by omega) (hc3'.trans hc3) ha3
    have hout : ¬ InSlots s (selected f) (top s (selected f) - f.width.bytes - f.width.bytes - f.width.bytes)
        (top s (selected f)) a := by
      unfold InSlots at *; omega
    rw [hframe' a hout, hframe a hout]
  rw [hexec', hmem, State.setMem_self]

/-! ## Push, Drop -/

/-- Settles O25: without `KEEP` a pop and a push of the same value, with it a peek and a push above. -/
theorem pushRepeatsTopWithKeep : Obligations.PushRepeatsTopWithKeep := by
  intro f s hm hs hroom
  have hle := hs.top_le
  have heven := hs.2.1
  have hn := Width.bytes_cases f.width
  simp only [exec_push, execPush]
  cases hk : f.keep with
  | false =>
    obtain ⟨m1, hpop, hwf1, hread1⟩ := pop_top (selected f) f.width s hm hs
    obtain ⟨m, hpush, -, hcopy, hframe⟩ := push_at (selected f) f.width
      (copy s (selected f) (top s (selected f)) f.width) s (top s (selected f) - f.width.bytes) m1 hwf1 hs
      (by omega) (by omega)
    simp only [Bool.false_eq_true, if_false]
    have hval := hcopy ((s.setOff (selected f)
      (BitVec.ofNat 16 (top s (selected f) - f.width.bytes + f.width.bytes))).setMem m) (by simp) (by simp)
      fun a _ => rfl
    rw [copy_low] at hval
    refine ⟨m, ?_, hval, hval, fun a ha => ?_⟩
    · rw [hpop, Flow.bind_cont, hpush, Flow.outcome_cont]
    · rw [hframe a ha, hread1, if_neg (by unfold InSlots at *; omega)]
  | true =>
    have hroom := hroom hk
    obtain ⟨m1, hpop, hwf1, hcopy1, -, hframe1⟩ := keep_top (selected f) f.width s hm hs
    obtain ⟨m, hpush, -, hcopy, hframe⟩ := push_at (selected f) f.width
      (copy s (selected f) (top s (selected f)) f.width) s
      (top s (selected f) - f.width.bytes + f.width.bytes) m1 hwf1 hs (by omega) hroom
    simp only [if_true]
    refine ⟨m, ?_, ?_, ?_, fun a ha => ?_⟩
    · rw [hpop, Flow.bind_cont, hpush, Flow.outcome_cont]
    · rw [hcopy _ (by simp) (by simp) fun a _ => rfl, copy_low]
    · exact hcopy1 _ (by simp) (by simp) fun a ha => hframe a (by unfold InSlots at *; omega)
    · unfold InSlots at *
      rw [hframe a (by omega), hframe1 a (by omega)]

/-- Settles O26, by `pop_top`. -/
theorem dropDiscardsTop : Obligations.DropDiscardsTop := by
  intro f s hm hs
  obtain ⟨m, hpop, -, hread⟩ := pop_top (selected f) f.width s hm hs
  exact ⟨m, by rw [exec_drop, execDrop, hpop, Flow.outcome_cont], hread⟩

end Sys2Proof.Machine
end

section
/-!
PROOFS. The memory instructions (43_memory_ops.md). `exec_str_sound` and `exec_load_sound` hold whatever the
address; for an address the memory serves, the MMU's part is `mmuWrite_memory` and `mmuRead_memory`.
-/

namespace Sys2Proof.Machine

/-- A 32-bit value shown by `copy` shows its high half at 16 bits too. -/
theorem copy_of_copy_wide {s u : State} {t : StackId} {i j : Nat} (h : copy u t i .wide = copy s t j .wide)
    (w : Width) : copy u t i w = copy s t j w := by
  cases w with
  | wide => exact h
  | narrow =>
    have happend : copyHalf u t i ++ copyHalf u t (i - 2) = copyHalf s t j ++ copyHalf s t (j - 2) := h
    have hnat := congrArg BitVec.toNat happend
    rw [toNat_append_half, toNat_append_half] at hnat
    have h1 := (copyHalf u t (i - 2)).isLt
    have h2 := (copyHalf s t (j - 2)).isLt
    have hhalf : copyHalf u t i = copyHalf s t j := BitVec.eq_of_toNat_eq (by omega)
    exact congrArg (BitVec.setWidth 32) hhalf

/-- `Str` on a readable stack, the memory its pops leave in canonical form. -/
theorem exec_str_sound (f : Flags) (s : State) (hm : s.mem.wf) (hs : StackSound (selected f) s) :
    ∃ m, Memory.wf m ∧
      let t := selected f
      let a := copy s t (top s t) .wide
      let d := if f.keep then copy s t (top s t) f.width else copy s t (top s t - 4) f.width
      let e := if f.keep then top s t - 4 + 4 else top s t - 4 - f.width.bytes
      let s1 := (s.setOff t (BitVec.ofNat 16 e)).setMem m
      exec (.str f) s = .next (mmuWrite a f.width d s1) ∧
      (f.keep = false → ∀ x, m.read x = if InSlots s t e (top s t) x then 0 else s.mem.read x) ∧
      (f.keep = true → copy s1 t e .wide = a ∧
        ∀ x, ¬ InSlots s t (top s t - 4) e x → m.read x = s.mem.read x) := by
  have hle := hs.top_le
  have heven := hs.2.1
  simp only [exec_str, execStr]
  cases hk : f.keep with
  | false =>
    obtain ⟨m1, hpop1, hwf1, hread1⟩ := pop_top (selected f) .wide s hm hs
    obtain ⟨m2, hpop2, hwf2, hread2⟩ :=
      pop_at (selected f) f.width s (top s (selected f) - 4) m1 hwf1 hs (by omega) (by omega)
    simp only [Width.bytes] at hpop1 hread1
    have hdata : copy (s.setMem m1) (selected f) (top s (selected f) - 4) f.width =
        copy s (selected f) (top s (selected f) - 4) f.width :=
      copy_setMem_congr fun x hx => (hread1 x).trans (if_neg (by unfold InSlots at *; omega))
    simp only [Bool.false_eq_true, if_false]
    refine ⟨m2, hwf2, ?_, fun _ x => ?_, nofun⟩
    · simp only [hpop1, Flow.bind_cont, hpop2, Flow.outcome_cont, hdata]
    · rw [hread2, hread1]
      unfold InSlots
      grind
  | true =>
    obtain ⟨m1, hpop1, hwf1, hcopy1, -, hframe1⟩ := keep_top (selected f) .wide s hm hs
    simp only [Width.bytes] at hpop1 hcopy1 hframe1
    have hpop2 := keep_at_held (w := f.width) hwf1 hs (k := top s (selected f) - 4 + 4) (by omega)
      (by rcases Width.bytes_cases f.width with hn | hn <;> omega) (by omega)
    have haddr := hcopy1 ((s.setOff (selected f) (BitVec.ofNat 16 (top s (selected f) - 4 + 4))).setMem m1)
      (by simp) (by simp) fun x _ => rfl
    have hdata := copy_of_copy_wide (hcopy1 (s.setMem m1) (by simp) (by simp) fun x _ => rfl) f.width
    simp only [if_true]
    refine ⟨m1, hwf1, ?_, nofun, fun _ => ⟨haddr, hframe1⟩⟩
    simp only [hpop1, Flow.bind_cont, hpop2, Flow.outcome_cont, hdata]

/-- Settles O27, by `exec_str_sound`. -/
theorem strWritesPoppedData : Obligations.StrWritesPoppedData := by
  intro f s hm hs
  obtain ⟨m, -, h⟩ := exec_str_sound f s hm hs
  exact ⟨m, h⟩

/-- A write that the memory serves, byte by byte (R55, R63). -/
theorem mmuWrite_memory {a : Word} {w : Width} (v : Word) {s : State} (hm : s.mem.wf) (h : InMemory s a w) :
    ∃ m, mmuWrite a w v s = s.setMem m ∧
      ∀ x, m.read x = if a.toNat ≤ x ∧ x < a.toNat + w.bytes then byteOf v (x - a.toNat) else s.mem.read x := by
  obtain ⟨hlo, hhi, hal, hin⟩ := h
  exact ⟨_, (mmuWrite_window hlo hhi).trans (guardedWrite_inside v s hal hin),
    fun x => read_memWrite w.bytes s.mem a.toNat v.toNat x hm⟩

/-- Settles O28: the state the pops leave (`exec_str_sound`), then the write (`mmuWrite_memory`). -/
theorem strStoresToMemory : Obligations.StrStoresToMemory := by
  intro f s hm hs hk hin
  obtain ⟨m, hwf, hexec, hzeroed, -⟩ := exec_str_sound f s hm hs
  simp only [hk, Bool.false_eq_true, if_false, forall_const] at hexec hzeroed
  obtain ⟨m', hwrite, hread⟩ := mmuWrite_memory
    (s := (s.setOff (selected f) (BitVec.ofNat 16 (top s (selected f) - 4 - f.width.bytes))).setMem m)
    (copy s (selected f) (top s (selected f) - 4) f.width) hwf (by simpa [InMemory] using hin)
  refine ⟨m', ?_, fun x => ?_⟩
  · rw [hexec, hwrite, State.setMem_setMem]
  · rw [hread, State.setMem_mem, hzeroed]

/-- A read through the MMU leaves base, depth and parameters. -/
theorem mmuRead_stack (a : Word) (w : Width) (s : State) (t : StackId) :
    baseOf (mmuRead a w s).2 t = baseOf s t ∧ top (mmuRead a w s).2 t = top s t ∧
      (mmuRead a w s).2.params = s.params ∧ (mmuRead a w s).2.mem = s.mem := by
  rcases mmuRead_state a w s with h | ⟨k, h⟩ <;> rw [h] <;> simp

/-- The push of a value read through the MMU, in the state the read leaves. -/
theorem push_mmuRead (t : StackId) (w : Width) (a : Word) {s : State} (hm : s.mem.wf) (hs : StackSound t s)
    (hk : top s t + w.bytes ≤ 256) :
    ∃ m, let r := mmuRead a w s
      let u := (r.2.setOff t (BitVec.ofNat 16 (top s t + w.bytes))).setMem m
      push t w r.1 r.2 = .cont () u ∧ Memory.wf m ∧ copy u t (top s t + w.bytes) w = r.1 ∧
      baseOf u t = baseOf s t ∧ u.params = s.params ∧
      ∀ x, ¬ InSlots s t (top s t) (top s t + w.bytes) x → m.read x = s.mem.read x := by
  obtain ⟨hb, ht, hp, hmem⟩ := mmuRead_stack a w s t
  have hlow := mmuRead_low a w s
  generalize mmuRead a w s = r at *
  obtain ⟨m, hpush, hwf, hcopy, hframe⟩ := push_top t w r.2 (by rw [hmem]; exact hm)
    (by rw [StackSound, hb, ht, hp]; exact hs) r.1 (by rw [ht]; exact hk)
  simp only [ht, InSlots, hb, hmem, hlow] at hpush hcopy hframe
  exact ⟨m, hpush, hwf, hcopy _ (by simp [hb]) (by simp) fun _ _ => rfl, by simp [hb], by simp [hp], hframe⟩

/-- `Load` on a readable stack, whose pop leaves it at depth `e`. -/
theorem exec_load_sound (f : Flags) (s : State) (e : Nat) (hm : s.mem.wf) (hs : StackSound (selected f) s)
    (he : e = if f.keep then top s (selected f) - 4 + 4 else top s (selected f) - 4)
    (hroom : f.keep = true → top s (selected f) - 4 + 4 + f.width.bytes ≤ 256) :
    ∃ m1 m, Memory.wf m ∧
      let t := selected f
      let n := f.width.bytes
      let a := copy s t (top s t) .wide
      let s1 := (s.setOff t (BitVec.ofNat 16 e)).setMem m1
      let r := mmuRead a f.width s1
      let u := (r.2.setOff t (BitVec.ofNat 16 (e + n))).setMem m
      exec (.load f) s = .next u ∧ copy u t (e + n) f.width = r.1 ∧
      (f.keep = true → copy u t e .wide = a) ∧
      (f.keep = false → ∀ x, m1.read x = if InSlots s t e (top s t) x then 0 else s.mem.read x) ∧
      (f.keep = true → ∀ x, ¬ InSlots s t (top s t - 4) e x → m1.read x = s.mem.read x) ∧
      ∀ x, ¬ InSlots s t e (e + n) x → m.read x = m1.read x := by
  obtain ⟨heven, -, -, -, hfree⟩ := pop_depth (w := .wide) hs he
  have hfit : e + f.width.bytes ≤ 256 := by
    have hn := Width.bytes_cases f.width
    have hwide : Width.wide.bytes = 4 := rfl
    cases hk : f.keep with
    | false =>
      have := hfree hk
      omega
    | true =>
      rw [hk, if_pos rfl] at he
      exact he ▸ hroom hk
  obtain ⟨m1, hpop, hwf1, hkept, hframe1, hzeroed⟩ := pop_either (w := .wide) hm hs he
  obtain ⟨hs1, htop1⟩ := hs.at m1 heven (by omega)
  obtain ⟨m, hpush, hwf, hcopy, hb, hp, hframe⟩ := push_mmuRead (selected f) f.width
    (copy s (selected f) (top s (selected f)) .wide) hwf1 hs1 (by rw [htop1]; exact hfit)
  simp only [htop1, InSlots, baseOf_setMem, baseOf_setOff, State.setMem_mem, State.setMem_params,
    State.setOff_params] at hpush hcopy hb hp hframe
  refine ⟨m1, m, hwf, ?next, hcopy, fun hk => ?kept, hzeroed, hframe1, hframe⟩
  case next => simp only [exec_load, execLoad, hpop, Flow.bind_cont, hpush, Flow.outcome_cont]
  case kept =>
    exact hkept hk _ (by simpa using hb) (by simpa using hp) fun x hx =>
      hframe x (by unfold InSlots at hx; omega)

/-- Settles O29, by `exec_load_sound`. -/
theorem loadPushesWhatMmuReads : Obligations.LoadPushesWhatMmuReads := by
  intro f s hm hs hroom
  obtain ⟨m1, m, -, h⟩ := exec_load_sound f s _ hm hs rfl hroom
  exact ⟨m1, m, h⟩

/-- A read that the memory serves: its bytes, and no change of state (R54, R62). -/
theorem mmuRead_memory {a : Word} {w : Width} {s : State} (h : InMemory s a w) :
    ∃ v, mmuRead a w s = (v, s) ∧ ∀ j, j < w.bytes → byteOf v j = s.mem.read (a.toNat + j) := by
  obtain ⟨hlo, hhi, hal, hin⟩ := h
  refine ⟨_, (mmuRead_window hlo hhi).trans (guardedRead_inside s hal hin), fun j hj => ?_⟩
  rw [byteOf, toNat_ofNat_memRead, memRead_byte _ _ _ _ hj]

/-- Settles O30: the state the pop leaves (`exec_load_sound`), where the bytes at the address still stand, and the
read of them (`mmuRead_memory`). -/
theorem loadReadsMemory : Obligations.LoadReadsMemory := by
  intro f s hm hs hk hin hout
  have hle := hs.top_le
  have hn := Width.bytes_cases f.width
  have hsize : baseOf s (selected f) + 256 ≤ s.params.memSize := hs.2.2.2
  obtain ⟨m1, m, -, hexec, hcopy, -, hzeroed, -, hframe⟩ := exec_load_sound f s (top s (selected f) - 4) hm hs
    (by simp [hk]) (by simp [hk])
  obtain ⟨v, hread, hbytes⟩ := mmuRead_memory
    (s := (s.setOff (selected f) (BitVec.ofNat 16 (top s (selected f) - 4))).setMem m1)
    (a := copy s (selected f) (top s (selected f)) .wide) (w := f.width) (by simpa [InMemory] using hin)
  simp only [hread, State.setOff_setMem, State.setOff_setOff, State.setMem_setMem,
    State.setMem_mem] at hexec hcopy hbytes
  refine ⟨m, hexec, fun x => ?_⟩
  split
  next hx =>
    have hbyte := read_of_copy_slot (x := x)
      (by simp only [baseOf_setMem, baseOf_setOff, State.setMem_params, State.setOff_params]; omega) hcopy
      (by simpa [InSlots] using hx)
    rw [baseOf_setMem, baseOf_setOff, State.setMem_mem] at hbyte
    obtain ⟨hx1, hx2⟩ := hx
    rw [hbyte, hbytes _ (by omega), hzeroed hk, if_neg (hout _ (by omega) (by omega))]
  next hx => rw [hframe x hx, hzeroed hk]

end Sys2Proof.Machine
end

section
/-!
PROOFS. The control instructions (44_control_ops.md). The two forms of `Jsr` are `exec_jsr_call` and
`exec_jsr_return`, both ending in `setIp`, which changes nothing that `copy` shows; the call and its return and the
return from an interrupt run these two one after the other.
-/

namespace Sys2Proof.Machine

/-! ## `SetIP` at the end of an instruction -/

/-- `IP` as it was does not matter to `SetIP`. -/
theorem setIp_ip (v a : Word) (s : State) : setIp v { s with ip := a } = setIp v s := by
  rw [setIp_eq, setIp_eq]
  split <;> rfl

theorem setIp_setOff_setMem (v : Word) (s : State) (t : StackId) (o : Half) (m : Memory) :
    setIp v ((s.setOff t o).setMem m) =
      { ((if v.getLsbD 0 then raised 0x80000001 s else s).setOff t o).setMem m with ip := v &&& 0xFFFFFFFE } := by
  rw [setIp_eq]
  cases v.getLsbD 0 <;> cases t <;> rfl

theorem setIp_setOffs_setMem (v : Word) (s : State) (o p : Half) (m : Memory) :
    setIp v (((s.setOff .P o).setOff .R p).setMem m) =
      { (((if v.getLsbD 0 then raised 0x80000001 s else s).setOff .P o).setOff .R p).setMem m with
        ip := v &&& 0xFFFFFFFE } := by
  rw [setIp_eq]
  cases v.getLsbD 0 <;> rfl

theorem baseOf_setIp (v : Word) (s : State) (t : StackId) : baseOf (setIp v s) t = baseOf s t := by
  unfold baseOf
  rw [(setIp_frame v s).stack]

theorem top_setIp (v : Word) (s : State) (t : StackId) : top (setIp v s) t = top s t := by
  unfold top
  rw [(setIp_frame v s).stack]

theorem copy_setIp (v : Word) (s : State) (t : StackId) (i : Nat) (w : Width) :
    copy (setIp v s) t i w = copy s t i w :=
  copy_congr (baseOf_setIp v s t) (setIp_frame v s).params fun a _ => by rw [(setIp_frame v s).mem]

theorem setIp_ip_of_even {v : Word} (s : State) (h : v.getLsbD 0 = false) : (setIp v s).ip = v := by
  rw [setIp_eq]
  exact clearBit0_of_even h

/-! ## The call form (R200) -/

theorem exec_jsr_of_call {f : Flags} (s : State) (h : f.ret = false) :
    exec (.jsr f) s = (jsrCall f s).outcome := by
  rw [exec_jsr, execJsr, h]
  rfl

theorem exec_jsr_of_return {f : Flags} (s : State) (h : f.ret = true) :
    exec (.jsr f) s = (jsrReturn f s).outcome := by
  rw [exec_jsr, execJsr, h]
  rfl

/-- The call form, whose pop leaves the return stack at depth `e`. -/
theorem exec_jsr_call (f : Flags) (s : State) (e : Nat) (hret : f.ret = false) (hm : s.mem.wf)
    (hs : StackSound .R s) (he : e = if f.keep then top s .R - 2 + 2 else top s .R - 2) (hroom : e + 4 ≤ 256) :
    ∃ m, let target := copy s .R (top s .R) .narrow
      let u := (s.setOff .R (BitVec.ofNat 16 (e + 4))).setMem m
      exec (.jsr f) s = .next (setIp target u) ∧ copy u .R (e + 4) .wide = s.ip + 2 ∧
      (f.keep = true → copy u .R e .narrow = target) ∧
      ∀ x, ¬ InSlots s .R (top s .R - 2) (e + 4) x → m.read x = s.mem.read x := by
  obtain ⟨heven, -, hlow, hhigh, -⟩ := pop_depth (w := .narrow) hs he
  simp only [Width.bytes] at hlow hhigh
  obtain ⟨m1, hpop, hwf1, hkept, hframe1, hzeroed⟩ := pop_either (w := .narrow) hm hs he
  obtain ⟨m, hpush, -, hcopy, hframe⟩ := push_at .R .wide (s.ip + 2) s e m1 hwf1 hs heven hroom
  refine ⟨m, ?next, hcopy _ (by simp) (by simp) fun _ _ => rfl, fun hk => ?kept, fun x hx => ?frame⟩
  case next =>
    simp only [exec_jsr_of_call s hret, jsrCall, hpop, Flow.bind_cont, State.setMem_ip, State.setOff_ip, hpush,
      Flow.outcome_cont]
    rfl
  case kept =>
    exact hkept hk _ (by simp) (by simp) fun x hx => hframe x (by unfold InSlots at *; omega)
  case frame =>
    rw [hframe x (by unfold InSlots at *; simp only [Width.bytes]; omega)]
    cases hk : f.keep with
    | false => exact (hzeroed hk x).trans (if_neg (by unfold InSlots at *; omega))
    | true => exact hframe1 hk x (by unfold InSlots at *; simp only [Width.bytes]; omega)

/-- Settles O31, by `exec_jsr_call`. -/
theorem jsrCallsTarget : Obligations.JsrCallsTarget := by
  intro f s hret hm hs hroom
  obtain ⟨m, hexec, hcopy, hkept, hframe⟩ := exec_jsr_call f s _ hret hm hs rfl hroom
  have hset := setIp_setOff_setMem (copy s .R (top s .R) .narrow) s .R
    (BitVec.ofNat 16 ((if f.keep then top s .R - 2 + 2 else top s .R - 2) + 4)) m
  refine ⟨m, hexec.trans (congrArg _ hset), ?_, fun hk => ?_, hframe⟩
  · rw [← hset, copy_setIp, hcopy]
  · rw [← hset, copy_setIp, hkept hk]

/-! ## The return form (R201) -/

/-- The return form, whose pop leaves the return stack at depth `e`. -/
theorem exec_jsr_return (f : Flags) (s : State) (e : Nat) (hret : f.ret = true) (hm : s.mem.wf)
    (hsP : StackSound .P s) (hsR : StackSound .R s) (hapart : StacksApart s) (hroom : top s .P + 4 ≤ 256)
    (he : e = if f.keep then top s .R - f.width.bytes + f.width.bytes else top s .R - f.width.bytes) :
    ∃ m, let n := f.width.bytes
      let target := copy s .R (top s .R) f.width
      let u := ((s.setOff .P (BitVec.ofNat 16 (top s .P + 4))).setOff .R (BitVec.ofNat 16 e)).setMem m
      exec (.jsr f) s = .next (setIp target u) ∧ copy u .P (top s .P + 4) .wide = s.ip + 2 ∧
      (f.keep = true → copy u .R e f.width = target ∧
        ∀ x, ¬ InSlots s .P (top s .P) (top s .P + 4) x → ¬ InSlots s .R (top s .R - n) e x →
          m.read x = s.mem.read x) ∧
      (f.keep = false → ∀ x, ¬ InSlots s .P (top s .P) (top s .P + 4) x →
        m.read x = if InSlots s .R e (top s .R) x then 0 else s.mem.read x) := by
  have hle := hsR.top_le
  obtain ⟨-, hfit, -⟩ := pop_depth hsR he
  obtain ⟨m1, hpush, hwf1, hcopy1, hframe1⟩ := push_top .P .wide s hm hsP (s.ip + 2) hroom
  obtain ⟨hs1, htop1⟩ := StackSound.other_at (t := .P) hsR m1 (BitVec.ofNat 16 (top s .P + 4))
  simp only [StackId.other] at hs1 htop1
  have htarget : copy ((s.setOff .P (BitVec.ofNat 16 (top s .P + 4))).setMem m1) .R (top s .R) f.width =
      copy s .R (top s .R) f.width :=
    copy_congr (by simp) (by simp) fun x hx => hframe1 x (not_inSlots_other (t := .R) hapart hle hroom hx)
  obtain ⟨m, hpop, -, hkept, hframe, hzeroed⟩ := pop_either (keep := f.keep) (e := e) hwf1 hs1
    (by rw [htop1]; exact he)
  simp only [htop1, htarget, InSlots, baseOf_setMem, baseOf_setOff, State.setOff_setMem, State.setMem_setMem,
    State.setMem_mem, State.setMem_params, State.setOff_params] at hpop hkept hframe hzeroed
  have hpushed : ∀ x, InSlots s .P (top s .P) (top s .P + 4) x → m.read x = m1.read x := fun x hx => by
    cases hk : f.keep with
    | false => exact (hzeroed hk x).trans (if_neg (not_inSlots_other (t := .P) hapart hroom hle hx))
    | true => exact hframe hk x (not_inSlots_other (t := .P) hapart hroom hfit hx)
  refine ⟨m, ?next, hcopy1 _ (by simp) (by simp) hpushed, fun hk => ⟨?kept, fun x hP hR => ?keptFrame⟩,
    fun hk x hP => ?zeroed⟩
  case next =>
    simp only [Width.bytes] at hpush
    simp only [exec_jsr_of_return s hret, jsrReturn, hpush, Flow.bind_cont, hpop, Flow.outcome_cont]
  case kept => exact hkept hk _ (by simp) (by simp) fun _ _ => rfl
  case keptFrame => rw [hframe hk x hR, hframe1 x hP]
  case zeroed => rw [hzeroed hk x, hframe1 x hP]

/-- Settles O32, by `exec_jsr_return`. -/
theorem jsrReturnsToTarget : Obligations.JsrReturnsToTarget := by
  intro f s hret hm hsP hsR hapart hroom
  obtain ⟨m, hexec, hcopy, hkept, hzeroed⟩ := exec_jsr_return f s _ hret hm hsP hsR hapart hroom rfl
  have hset := setIp_setOffs_setMem (copy s .R (top s .R) f.width) s (BitVec.ofNat 16 (top s .P + 4))
    (BitVec.ofNat 16 (if f.keep then top s .R - f.width.bytes + f.width.bytes else top s .R - f.width.bytes)) m
  refine ⟨m, hexec.trans (congrArg _ hset), ?_, fun hk => ⟨?_, (hkept hk).2⟩, hzeroed⟩
  · rw [← hset, copy_setIp, hcopy]
  · rw [← hset, copy_setIp, (hkept hk).1]

/-! ## Overflows -/

/-- Settles O33, by `push_full`. -/
theorem jsrReturnOnFullStackOverflows : Obligations.JsrReturnOnFullStackOverflows := by
  intro f s hret hfull
  rw [exec_jsr_of_return s hret, jsrReturn, push_full .wide _ hfull]
  rfl

/-- Settles O34: the target's slot is popped, and the push there is one at the last slot (`push_wide_last`). -/
theorem jsrCallOnFullStackOverflows : Obligations.JsrCallOnFullStackOverflows := by
  intro f s hret hk hm hs hfull
  obtain ⟨m1, hpop, hwf1, hread1⟩ := pop_top .R .narrow s hm hs
  simp only [Width.bytes, hfull] at hpop hread1
  obtain ⟨hs1, htop1⟩ := hs.at m1 (k := 254) (by decide) (by decide)
  obtain ⟨m, hpush, hread⟩ := push_wide_last .R (s.ip + 2) hwf1 hs1 htop1
  have hback : s.setOff .R 256 = s := setOff_top_self s .R 256 hfull.symm
  simp only [State.setOff_setMem, State.setOff_setOff, State.setMem_setMem, hback, State.setMem_ip,
    State.setOff_ip, InSlots, baseOf_setMem, baseOf_setOff, State.setMem_mem] at hpush hread
  refine ⟨m, ?stop, fun x => ?bytes⟩
  case stop =>
    simp only [exec_jsr_of_call s hret, jsrCall, hk, hpop, Flow.bind_cont, State.setMem_ip, State.setOff_ip]
    rw [hpush]
    rfl
  case bytes =>
    rw [hread]
    split
    · rfl
    next hx => exact (hread1 x).trans (if_neg hx)

/-- Settles O35: each peek changes nothing (`keep_held`), each push stops (`push_full`). -/
theorem keepFormsOverflowFullStack : Obligations.KeepFormsOverflowFullStack := by
  refine fun f s hk hm => ⟨fun hs hfull => ⟨?push, ?load⟩, fun hret hs hfull => ?jsr⟩
  case push =>
    have hheld : f.width.bytes ≤ top s (selected f) := by
      rcases Width.bytes_cases f.width with hn | hn <;> omega
    rw [exec_push, execPush, hk, keep_held _ _ s hm hs hheld, Flow.bind_cont, push_full _ _ (by omega)]
    rfl
  case load =>
    obtain ⟨-, htop, -, -⟩ := mmuRead_stack (copy s (selected f) 256 .wide) f.width s (selected f)
    have hip := (mmuRead_frame (copy s (selected f) 256 .wide) f.width s).1.ip
    rw [exec_load, execLoad, hk, keep_held _ _ s hm hs (by rw [hfull]; decide), Flow.bind_cont, hfull]
    simp only [push_full f.width _ (htop.trans hfull).ge, hip, Flow.outcome_stop]
  case jsr =>
    rw [exec_jsr_of_call s hret, jsrCall, hk, keep_held _ _ s hm hs (by rw [hfull]; decide), Flow.bind_cont,
      push_full _ _ (by omega)]
    rfl

/-! ## A call and its return (R203) -/

theorem getLsbD_zero_of_even {v : Word} (h : v.toNat % 2 = 0) : v.getLsbD 0 = false := by
  simp [BitVec.getLsbD, Nat.testBit_zero, h]

theorem add_two_even {v : Word} (h : v.toNat % 2 = 0) : (v + 2).toNat % 2 = 0 := by
  rw [BitVec.toNat_add, show (2 : Word).toNat = 2 from rfl]
  omega

/-- Settles O36: what the call leaves on the return stack (`exec_jsr_call`) is the target of the return
(`exec_jsr_return`), and it is even. -/
theorem callThenReturnComesBack : Obligations.CallThenReturnComesBack := by
  intro f s hret hm hs hheld heven htarget hroom
  obtain ⟨m, hexec, hcopy, -⟩ := exec_jsr_call f s (if f.keep then top s .R else top s .R - 2) hret hm hs
    (by rw [Nat.sub_add_cancel hheld]) hroom
  refine ⟨_, hexec, setIp_ip_of_even _ htarget, ?_⟩
  intro g v hgret hshort hwf hsP hsR hapart hroomP htop hsame
  rw [top_setIp] at htop hsame
  rw [copy_setIp, top_at s .R m hroom, hcopy] at hsame
  have hwide : g.width = .wide := by rw [Flags.width, hshort]; rfl
  obtain ⟨k, hexec', -, -⟩ := exec_jsr_return g v _ hgret hwf hsP hsR hapart hroomP rfl
  simp only [hwide, hsame] at hexec'
  refine ⟨_, hexec', setIp_ip_of_even _ (getLsbD_zero_of_even (add_two_even heven)), ?_, fun hk => ?_⟩
  · rw [top_setIp, top_setMem]
    exact off_ofNat _ (by omega)
  · rw [top_setIp, top_setMem, top_setOff, hk]
    exact toNat_ofNat_top_sub v .R 4

/-! ## The return from an interrupt (R236) -/

/-- The flag byte of the three instructions of the sequence. -/
def returnShort : Flags := { ret := true, short := true }

/-- `SIC.RA` loaded from its address on the return stack: it takes the address's place. -/
theorem exec_load_ra (s : State) (hm : s.mem.wf) (hs : StackSound .R s) (hheld : 4 ≤ top s .R)
    (ha : copy s .R (top s .R) .wide = 0x308) :
    ∃ m, Memory.wf m ∧ exec (.load returnShort) s = .next (s.setMem m) ∧
      copy (s.setMem m) .R (top s .R) .wide = s.sic.ra ∧
      ∀ x, ¬ InSlots s .R (top s .R - 4) (top s .R) x → m.read x = s.mem.read x := by
  obtain ⟨m1, m, hwf, hexec, hcopy, -, hzeroed, -, hframe⟩ :=
    exec_load_sound returnShort s (top s .R - 4) hm hs rfl nofun
  have hdepth : top s .R - 4 + returnShort.width.bytes = top s .R := Nat.sub_add_cancel hheld
  have hread : mmuRead 0x308 returnShort.width ((s.setOff .R (BitVec.ofNat 16 (top s .R - 4))).setMem m1) =
      (s.sic.ra, (s.setOff .R (BitVec.ofNat 16 (top s .R - 4))).setMem m1) :=
    mmuRead_register (r := .ra) (w := .wide) _ rfl
  simp only [selected, returnShort, if_true] at hexec hcopy hframe hzeroed hdepth hread
  simp only [ha, hread, hdepth, State.setOff_setMem, State.setOff_setOff, State.setMem_setMem,
    setOff_top_self s .R _ rfl] at hexec hcopy hframe
  refine ⟨m, hwf, hexec, hcopy, fun x hx => ?_⟩
  rw [hframe x hx]
  exact (hzeroed trivial x).trans (if_neg hx)

/-- The sequence in the middle: the return stack of `s` four bytes deeper, another memory, `IP` moved on. -/
def deeper (s : State) (m : Memory) (ip : Word) : State :=
  { (s.setOff .R (BitVec.ofNat 16 (top s .R + 4))).setMem m with ip := ip }

theorem baseOf_deeper (s : State) (m : Memory) (ip : Word) (t : StackId) : baseOf (deeper s m ip) t = baseOf s t := by
  cases t <;> rfl

theorem top_deeper_R {s : State} (m : Memory) (ip : Word) (h : top s .R + 4 ≤ 256) :
    top (deeper s m ip) .R = top s .R + 4 := top_at s .R m h

theorem deeper_sound {s : State} (hs : StackSound .R s) (m : Memory) (ip : Word) (h : top s .R + 4 ≤ 256) :
    StackSound .R (deeper s m ip) :=
  (hs.at m (by have := hs.2.1; omega) h).1

/-- The `Jsr` of the sequence brings the return stack's depth back. -/
theorem setIp_deeper (v : Word) (s : State) (m k : Memory) (ip : Word) (o : Half) :
    setIp v ((((deeper s m ip).setOff .P o).setOff .R (BitVec.ofNat 16 (top s .R))).setMem k) =
      setIp v ((s.setOff .P o).setMem k) := by
  have hback : (s.setOff .P o).setOff .R (BitVec.ofNat 16 (top s .R)) = s.setOff .P o :=
    setOff_top_self (s.setOff .P o) .R _ rfl
  calc setIp v ((((deeper s m ip).setOff .P o).setOff .R (BitVec.ofNat 16 (top s .R))).setMem k)
      = setIp v { ((s.setOff .P o).setOff .R (BitVec.ofNat 16 (top s .R))).setMem k with ip := ip } := rfl
    _ = setIp v ((s.setOff .P o).setMem k) := by rw [setIp_ip, hback]

/-- Settles O37: `Lit` puts the address of `SIC.RA` on the return stack (`push_top`), `Load` its value
(`exec_load_ra`), and `Jsr` takes it from there (`exec_jsr_return`). -/
theorem returnFromInterruptSequence : Obligations.ReturnFromInterruptSequence := by
  intro s hm hsP hsR hapart hroomP hroomR
  obtain ⟨m1, hpush1, hwf1, hcopy1, hframe1⟩ := push_top .R .wide s hm hsR 0x308 hroomR
  have htop {m : Memory} {ip : Word} : top (deeper s m ip) .R = top s .R + 4 := top_deeper_R m ip hroomR
  obtain ⟨m2, hwf2, hload, hcopy2, hframe2⟩ := exec_load_ra (deeper s m1 (s.ip + 6)) hwf1
    (deeper_sound hsR m1 _ hroomR) (by rw [htop]; omega)
    (by rw [htop]; exact hcopy1 _ rfl rfl fun _ _ => rfl)
  obtain ⟨m, hjsr, hcopy, -, hread⟩ := exec_jsr_return returnShort (deeper s m2 (s.ip + 8)) (top s .R) rfl hwf2
    hsP (deeper_sound hsR m2 _ hroomR) hapart hroomP (by rw [htop]; rfl)
  rw [htop] at hcopy2 hframe2 hjsr hread
  simp only [InSlots, baseOf_deeper] at hframe2 hread
  have htarget : copy (deeper s m2 (s.ip + 8)) .R (top s .R + 4) .wide = s.sic.ra :=
    (copy_congr rfl rfl fun _ _ => rfl).trans hcopy2
  have hset := setIp_setOff_setMem s.sic.ra s .P (BitVec.ofNat 16 (top s .P + 4)) m
  refine ⟨(s.setOff .R (BitVec.ofNat 16 (top s .R + 4))).setMem m1, (deeper s m1 (s.ip + 6)).setMem m2, m,
    ?lit, hload, ?jsr, ?pushed, fun x hx => ?zeroed, fun x hP hR => ?frame⟩
  case lit => exact congrArg Flow.outcome hpush1
  case jsr =>
    refine hjsr.trans (congrArg Host.Outcome.next ?_)
    rw [show returnShort.width = .wide from rfl, htarget]
    exact (setIp_deeper _ s m2 m _ _).trans hset
  case pushed =>
    rw [← hset, copy_setIp]
    refine (copy_congr rfl rfl fun _ _ => rfl).trans (hcopy.trans ?_)
    exact BitVec.add_assoc s.ip 8 2
  case zeroed =>
    exact (hread rfl x (not_inSlots_other (t := .R) hapart hroomR hroomP hx)).trans (if_pos hx)
  case frame =>
    refine (hread rfl x hP).trans ((if_neg hR).trans ((hframe2 x ?_).trans (hframe1 x hR)))
    rw [Nat.add_sub_cancel]
    exact hR

/-! ## Cmp, Halt -/

theorem exec_cmp_of_pops {f : Flags} {s u u' : State} {v1 v2 : Word}
    (h1 : pop (selected f) f.width f.keep s = .cont v1 u) (h2 : pop (selected f) f.width f.keep u = .cont v2 u') :
    exec (.cmp f) s = .next { u' with
      cr := ⟨decide (v1 = v2), decide (v1.toNat > v2.toNat), decide (v1.toNat < v2.toNat)⟩ } := by
  rw [exec_cmp, execCmp, h1, Flow.bind_cont, h2]
  rfl

/-- Settles O38: two pops, with `KEEP` two peeks of the same value. -/
theorem cmpWritesCondition : Obligations.CmpWritesCondition := by
  intro f s hm hs
  have hle := hs.top_le
  have heven := hs.2.1
  have hn := Width.bytes_cases f.width
  cases hk : f.keep with
  | false =>
    obtain ⟨m1, hpop1, hwf1, hread1⟩ := pop_top (selected f) f.width s hm hs
    obtain ⟨m2, hpop2, -, hread2⟩ :=
      pop_at (selected f) f.width s (top s (selected f) - f.width.bytes) m1 hwf1 hs (by omega) (by omega)
    have hsecond : copy (s.setMem m1) (selected f) (top s (selected f) - f.width.bytes) f.width =
        copy s (selected f) (top s (selected f) - f.width.bytes) f.width :=
      copy_setMem_congr fun x hx => (hread1 x).trans (if_neg (by unfold InSlots at *; omega))
    rw [hsecond, ← hk] at hpop2
    rw [← hk] at hpop1
    refine ⟨m2, exec_cmp_of_pops hpop1 hpop2, fun _ x => ?_, nofun⟩
    rw [hread2, hread1]
    simp only [Bool.false_eq_true, if_false, InSlots]
    grind
  | true =>
    obtain ⟨m1, hpop1, hwf1, hcopy1, -, hframe1⟩ := keep_top (selected f) f.width s hm hs
    have hpop2 := keep_at_held (w := f.width) hwf1 hs
      (k := top s (selected f) - f.width.bytes + f.width.bytes) (by omega) (by omega) (by omega)
    rw [hcopy1 (s.setMem m1) (by simp) (by simp) fun _ _ => rfl, ← hk] at hpop2
    rw [← hk] at hpop1
    refine ⟨m1, exec_cmp_of_pops hpop1 hpop2, nofun, fun _ => ⟨hcopy1 _ ?_ ?_ fun _ _ => rfl, hframe1⟩⟩
    · exact baseOf_setOff s (selected f) (selected f) _
    · exact State.setOff_params s (selected f) _

/-- Settles O40. -/
theorem haltStopsMachine : Obligations.HaltStopsMachine := fun f s => exec_halt f s

end Sys2Proof.Machine
end

section
/-!
PROOFS. The cycle (41_dispatch.md). A ready machine's step is its cycle (`step_of_ready`), and with no interrupt
pending its fetch and run (`step_of_quiet`); `fetchAndRun_decoded` says what that is where the bytes at `IP` decode,
`deviceOr_cons` and `deviceOr_nil` what the device makes of a machine whose CORE takes no step.
-/

namespace Sys2Proof.Machine

/-! ## Which agent moves (R151, R163, R164) -/

theorem step_of_ready {s : State} (h : Ready s) : step s = cycle s := by
  obtain ⟨hrun, hstop, hready⟩ := h
  simp only [step, agentStep, hrun, hstop, hready, Bool.false_eq_true, if_false, if_true]

theorem step_of_quiet {s : State} (h : Ready s) (hp : s.pending = false) : step s = fetchAndRun s := by
  rw [step_of_ready h, cycle, interruptEntry, hp]
  rfl

theorem deviceOr_cons (r : Fault) {s : State} {b : Byte} {q : List Byte} (h : s.outq = b :: q) :
    deviceOr r s = .next { s with outq := q, outputTrace := s.outputTrace ++ [b], outReady := true } := by
  simp only [deviceOr, deviceStep, h]

theorem deviceOr_nil (r : Fault) {s : State} (h : s.outq = []) : deviceOr r s = .fault r := by
  simp only [deviceOr, deviceStep, h]

/-- Where the CORE takes no step, the step is the device's or the fault that says why. -/
theorem step_of_not_ready {s : State} (h : s.run ≠ .running ∨ s.stopped = true ∨ s.outReady = false) :
    ∃ r, step s = deviceOr r s := by
  unfold step agentStep
  split
  next hrun =>
    rcases h with h | h | h
    · exact absurd hrun h
    · exact ⟨_, if_pos h⟩
    · rw [h]
      split <;> exact ⟨_, rfl⟩
  · exact ⟨_, rfl⟩
  · exact ⟨_, rfl⟩

/-- Settles O42: entry leaves a ready machine with the latch clear, where a second entry does nothing. -/
theorem pendingInterruptEntersFirst : Obligations.PendingInterruptEntersFirst := by
  intro s hready hp
  have hentered : step (takeInterrupt s) = fetchAndRun (takeInterrupt s) := step_of_quiet hready rfl
  calc step s = fetchAndRun (interruptEntry s) := step_of_ready hready
    _ = fetchAndRun (takeInterrupt s) := by rw [interruptEntry, if_pos hp]
    _ = step (takeInterrupt s) := hentered.symm

/-- Settles O48: a waiting byte by `deviceOr_cons`, none by `deviceOr_nil`. -/
theorem heldOrStoppedCoreLeavesTheDevice : Obligations.HeldOrStoppedCoreLeavesTheDevice := by
  refine fun s => ⟨fun h b q hq => ?emits, fun hrun hq => ?halted, fun info hrun hq => ?fatal,
    fun hrun hstop hq => ?stopped, fun hrun hstop hready hq => ?held⟩
  case emits =>
    obtain ⟨r, hstep⟩ := step_of_not_ready h
    rw [hstep, deviceOr_cons r hq]
  case halted => simp only [step, agentStep, hrun, deviceOr_nil _ hq]
  case fatal => simp only [step, agentStep, hrun, deviceOr_nil _ hq]
  case stopped => simp only [step, agentStep, hrun, hstop, if_true, deviceOr_nil _ hq]
  case held =>
    simp only [step, agentStep, hrun, hstop, hready, Bool.false_eq_true, if_false, deviceOr_nil _ hq]

/-! ## `SetIP` (R160) -/

theorem getLsbD_zero_of_odd {v : Word} (h : v.toNat % 2 = 1) : v.getLsbD 0 = true := by
  simp [BitVec.getLsbD, Nat.testBit_zero, h]

theorem clearBit0_eq_shift (v : Word) : clearBit0 v = (v >>> 1) <<< 1 := by
  apply BitVec.eq_of_getLsbD_eq
  intro i hi
  rw [clearBit0, BitVec.getLsbD_and, BitVec.getLsbD_shiftLeft, BitVec.getLsbD_ushiftRight]
  cases i with
  | zero => simp
  | succ k =>
    have hk : k < 31 := by omega
    have hmask : (0xFFFFFFFE : Word).getLsbD (k + 1) = true := by interval_cases k <;> rfl
    rw [hmask, Bool.and_true, Nat.add_sub_cancel, Nat.add_comm 1 k]
    simp [hi]

/-- Bit 0 cleared from an odd address. -/
theorem clearBit0_of_odd {v : Word} (h : v.toNat % 2 = 1) : clearBit0 v = v - 1 := by
  have hv := v.isLt
  apply BitVec.eq_of_toNat_eq
  rw [clearBit0_eq_shift, BitVec.toNat_shiftLeft, BitVec.toNat_ushiftRight, Nat.shiftRight_eq_div_pow,
    Nat.shiftLeft_eq, BitVec.toNat_sub, show (1 : Word).toNat = 1 from rfl]
  omega

/-- Settles O43. -/
theorem setIpClearsBitZero : Obligations.SetIpClearsBitZero := by
  refine fun v s => ⟨fun h => ?even, fun h => ?odd⟩
  case even =>
    have hbit := getLsbD_zero_of_even h
    rw [setIp_eq, hbit, clearBit0_of_even hbit]
    rfl
  case odd =>
    rw [setIp_eq, getLsbD_zero_of_odd h, clearBit0_of_odd h]
    rfl

/-! ## The gate (R155 to R159) -/

theorem dispatch_of_skipped {i : Instr} (ip0 : Word) {s : State} (h : gate i.flags s.cr = false) :
    dispatch i ip0 s = .next (advance i ip0 s) := by
  rw [dispatch, h]
  rfl

theorem dispatch_of_passed {i : Instr} (ip0 : Word) {s : State} (h : gate i.flags s.cr = true) :
    dispatch i ip0 s = afterExec i ip0 (exec (withImmediate i ip0 s).1 (withImmediate i ip0 s).2) := by
  rw [dispatch, h]
  rfl

theorem gate_of_no_bit {f : Flags} (c : CondReg)
    (h : f.ifEqual = false ∧ f.ifGreater = false ∧ f.ifLess = false) : gate f c = true := by
  obtain ⟨he, hg, hl⟩ := h
  simp [gate, he, hg, hl]

theorem gate_of_bit {f : Flags} (c : CondReg)
    (h : ¬ (f.ifEqual = false ∧ f.ifGreater = false ∧ f.ifLess = false)) :
    gate f c = true ↔ (f.ifEqual = true ∧ c.eq = true) ∨ (f.ifGreater = true ∧ c.gt = true) ∨
      (f.ifLess = true ∧ c.lt = true) := by
  have hbits : (!(f.ifEqual || f.ifGreater || f.ifLess)) = false := by
    by_contra hnone
    exact h (by simpa [and_assoc] using hnone)
  simp [gate, hbits, or_assoc]

/-- Settles O44: the gate with and without a gate bit, the dispatch by its two branches. -/
theorem gateMatchesCondition : Obligations.GateMatchesCondition := by
  refine ⟨fun f c => ?gate, fun i ip0 s => ⟨dispatch_of_skipped ip0, dispatch_of_passed ip0⟩⟩
  by_cases h : f.ifEqual = false ∧ f.ifGreater = false ∧ f.ifLess = false
  · exact iff_of_true (gate_of_no_bit c h) (.inl h)
  · exact (gate_of_bit c h).trans (or_iff_right h).symm

/-! ## The wrapper around `exec` (R157, R159) -/

theorem afterExec_stopped (i : Instr) (ip0 : Word) {u : State} (h : u.run ≠ .running) :
    afterExec i ip0 (.next u) = .next u := by
  simp [afterExec, h]

theorem afterExec_jsr (f : Flags) (ip0 : Word) (u : State) :
    afterExec (.jsr f) ip0 (.next u) = .next u := by
  simp [afterExec, setsIp]

theorem setsIp_of_not_jsr {i : Instr} (h : ∀ f, i ≠ .jsr f) : setsIp i = false := by
  cases i with
  | jsr f => exact absurd rfl (h f)
  | _ => rfl

theorem afterExec_running {i : Instr} (ip0 : Word) {u : State} (h : u.run = .running) (hi : ∀ f, i ≠ .jsr f) :
    afterExec i ip0 (.next u) = .next (advance i ip0 u) := by
  simp [afterExec, h, setsIp_of_not_jsr hi]

/-! ## The fetch (R153, R154) -/

/-- The fetch of a word whose opcode byte the map knows. -/
theorem fetchAndRun_of_opcode {s u : State} {b0 b1 : Byte} {i : Instr}
    (hf : fetchRead16 s.ip s = (halfOfBytes b0 b1, u)) (hi : Instr.ofOpcode b0 (Flags.ofByte b1) 0 = some i) :
    fetchAndRun s = dispatch i s.ip u := by
  simp only [fetchAndRun, hf, halfOfBytes_lo, halfOfBytes_hi, hi]

/-- The fetch of a word whose opcode byte is illegal. -/
theorem fetchAndRun_of_illegal {s u : State} {b0 b1 : Byte}
    (hf : fetchRead16 s.ip s = (halfOfBytes b0 b1, u)) (hi : Instr.ofOpcode b0 (Flags.ofByte b1) 0 = none) :
    fetchAndRun s = .next (fatalStop (.invalidOpcode s.ip b0) u) := by
  simp only [fetchAndRun, hf, halfOfBytes_lo, halfOfBytes_hi, hi]

/-- Settles O46: the opcode map has nothing for the byte, and the fatal stop changes `run` only. -/
theorem illegalOpcodeStopsMachine : Obligations.IllegalOpcodeStopsMachine := by
  intro s hready hp hin hop
  rw [step_of_quiet hready hp, fetchAndRun_of_illegal (fetchRead16_window hin) (Instr.ofOpcode_eq_none _ hop)]
  rfl

/-- A faulting fetch reads the word 0x0000, an ungated `Nop` (R153). -/
theorem fetchAndRun_of_fault {s : State} {k : FaultKind} (hrun : s.run = .running)
    (h : mmuRead s.ip .narrow s = (0, raiseFault k s)) :
    fetchAndRun s = .next { raiseFault k s with ip := s.ip + 2 } := by
  have hzero : (0 : Word).setWidth 16 = halfOfBytes 0 0 := by decide
  have hfetch : fetchRead16 s.ip s = (halfOfBytes 0 0, raiseFault k s) := by simp only [fetchRead16, h, hzero]
  have hnop : Instr.ofOpcode 0 (Flags.ofByte 0) 0 = some (.nop (Flags.ofByte 0)) := rfl
  rw [fetchAndRun_of_opcode hfetch hnop, dispatch_of_passed s.ip rfl]
  exact afterExec_running (i := .nop (Flags.ofByte 0)) s.ip hrun nofun

/-- Settles O47: the three ways a fetch faults, each by `fetchAndRun_of_fault`. -/
theorem faultingFetchRunsAsNop : Obligations.FaultingFetchRunsAsNop := by
  intro s hready hp heven
  rw [step_of_quiet hready hp]
  refine ⟨fun hio hno => ?unmappedIo, fun hlo hhi hout => ?bounds, fun hlo hhi => ?unmappedAddr⟩
  case unmappedIo =>
    exact fetchAndRun_of_fault hready.1 (mmuRead_unmapped hio heven (IoReg.ofAddr_eq_none hno))
  case bounds =>
    exact fetchAndRun_of_fault hready.1 ((mmuRead_window hlo hhi).trans (guardedRead_outside s heven hout))
  case unmappedAddr => exact fetchAndRun_of_fault hready.1 (mmuRead_above hlo hhi)

/-! ## A step of the decoded instruction (R151) -/

/-- An instruction without an immediate is executed as decoded. -/
theorem withImmediate_of_not_lit {i : Instr} (h : ∀ f imm, i ≠ .lit f imm) (ip0 : Word) (s : State) :
    withImmediate i ip0 s = (i, s) := by
  cases i with
  | lit f imm => exact absurd rfl (h f imm)
  | _ => rfl

theorem fetchImmediate_narrow {a : Word} {s : State} {h : Half} (hf : fetchRead16 a s = (h, s)) :
    fetchImmediate a .narrow s = (wordOfHalves h 0, s) := by
  simp only [fetchImmediate, hf]

theorem fetchImmediate_wide {a : Word} {s : State} {lo hi : Half} (hlo : fetchRead16 a s = (lo, s))
    (hhi : fetchRead16 (a + 2) s = (hi, s)) : fetchImmediate a .wide s = (wordOfHalves lo hi, s) := by
  simp only [fetchImmediate, hlo, hhi]

/-- A `Lit` whose immediate the stream holds at `ip0 + 2`. -/
theorem withImmediate_lit {f : Flags} {imm ip0 : Word} {s : State}
    (h : fetchImmediate (ip0 + 2) f.width s = (imm, s)) : withImmediate (.lit f 0) ip0 s = (.lit f imm, s) := by
  simp only [withImmediate, h]

/-- The word at `ip`, in the memory of a machine with legal parameters (R9, R66). -/
theorem fetchRead16_bytes {s : State} {a : Word} {n : Nat} (hp : s.params.valid) (hn : a.toNat = n)
    (heven : n % 2 = 0) (hlo : 0x400 ≤ n) (hin : n + 2 ≤ s.params.memSize) :
    fetchRead16 a s = (halfOfBytes (s.mem.read n) (s.mem.read (n + 1)), s) := by
  subst hn
  obtain ⟨-, -, hwin, -⟩ := hp
  exact fetchRead16_window ⟨hlo, by omega, heven, hin⟩

theorem toNat_add_two {a : Word} (h : a.toNat + 2 < 2 ^ 32) : (a + 2).toNat = a.toNat + 2 := by
  rw [BitVec.toNat_add, show (2 : Word).toNat = 2 from rfl]
  omega

/-- What `fetchAndRun` makes of a machine whose fetched instruction is `i`: past it where its gate fails, else its
execution and the wrapper's advance (R156 to R159). -/
def RunsInstr (i : Instr) (s : State) : Prop :=
  (gate i.flags s.cr = false → fetchAndRun s = .next (advance i s.ip s)) ∧
    (gate i.flags s.cr = true → fetchAndRun s = afterExec i s.ip (exec i s))

theorem runsInstr_of_not_lit {i : Instr} {s : State} (hlit : ∀ f imm, i ≠ .lit f imm)
    (h : fetchAndRun s = dispatch i s.ip s) : RunsInstr i s := by
  refine ⟨fun hg => h.trans (dispatch_of_skipped s.ip hg), fun hg => ?_⟩
  rw [h, dispatch_of_passed s.ip hg, withImmediate_of_not_lit hlit]

theorem runsInstr_lit {f : Flags} {imm : Word} {s : State} (h : fetchAndRun s = dispatch (.lit f 0) s.ip s)
    (himm : fetchImmediate (s.ip + 2) f.width s = (imm, s)) : RunsInstr (.lit f imm) s := by
  refine ⟨fun hg => h.trans (dispatch_of_skipped s.ip hg), fun hg => ?_⟩
  rw [h, dispatch_of_passed (i := .lit f 0) s.ip hg, withImmediate_lit himm]
  rfl

/-- The bytes at `IP` decode to `i`: the fetch and the read of the immediate find it (R66, R108). -/
theorem runsInstr_of_decode {i : Instr} {s : State} (hp : s.params.valid) (heven : s.ip.toNat % 2 = 0)
    (hlo : 0x400 ≤ s.ip.toNat) (hin : s.ip.toNat + i.length ≤ s.params.memSize)
    (h : decode (s.mem.bytes s.ip.toNat i.length) = .ok (i, [])) : RunsInstr i s := by
  have hmax : s.params.memSize ≤ 2 ^ 32 := hp.2.1
  have hd := decode_eq_ok_iff.1 h
  generalize hbs : s.mem.bytes s.ip.toNat i.length = bs at hd
  cases hd with
  | word op fb i rest hop hlit =>
    rw [Instr.length_eq_two hlit] at hbs hin
    cases hbs
    exact runsInstr_of_not_lit hlit (fetchAndRun_of_opcode (fetchRead16_bytes hp rfl heven hlo hin) hop)
  | lit fb b0 b1 rest hshort =>
    rw [Instr.length, hshort] at hbs hin
    simp only [Bool.false_eq_true, if_false, Memory.bytes, List.cons.injEq] at hbs hin
    obtain ⟨hop, rfl, rfl, rfl, -⟩ := hbs
    have hfetch := fetchRead16_bytes hp rfl heven hlo (by omega)
    rw [hop] at hfetch
    refine runsInstr_lit (fetchAndRun_of_opcode hfetch rfl) ?_
    rw [Flags.width, hshort]
    exact fetchImmediate_narrow
      (fetchRead16_bytes hp (toNat_add_two (by omega)) (by omega) (by omega) (by omega))
  | litShort fb b0 b1 b2 b3 rest hshort =>
    rw [Instr.length, hshort] at hbs hin
    simp only [if_true, Memory.bytes, List.cons.injEq] at hbs hin
    obtain ⟨hop, rfl, rfl, rfl, rfl, rfl, -⟩ := hbs
    have hfetch := fetchRead16_bytes hp rfl heven hlo (by omega)
    rw [hop] at hfetch
    refine runsInstr_lit (fetchAndRun_of_opcode hfetch rfl) ?_
    rw [Flags.width, hshort]
    have hnext : (s.ip + 2).toNat = s.ip.toNat + 2 := toNat_add_two (by omega)
    exact fetchImmediate_wide
      (fetchRead16_bytes hp hnext (by omega) (by omega) (by omega))
      (fetchRead16_bytes hp ((toNat_add_two (by omega)).trans (congrArg (· + 2) hnext)) (by omega) (by omega)
        (by omega))

/-- Settles O45, by `runsInstr_of_decode`, and the wrapper's advance case by case. -/
theorem stepRunsDecodedInstruction : Obligations.StepRunsDecodedInstruction := by
  intro i s hready hp hvalid heven hlo hin hdecode
  obtain ⟨hskip, hrun⟩ := runsInstr_of_decode hvalid heven hlo hin hdecode
  rw [step_of_quiet hready hp]
  refine ⟨hskip, fun hg u hu => ?_⟩
  rw [hrun hg, hu]
  refine ⟨afterExec_stopped i s.ip, fun _ hjsr => ?_, fun hur hjsr => afterExec_running s.ip hur hjsr⟩
  obtain ⟨f, rfl⟩ := hjsr
  exact afterExec_jsr f s.ip u

end Sys2Proof.Machine
end

section
/-!
PROOFS. Reset and boot (70_reset_and_hazards.md R270 to R276): `boot` in its four cases, and the invariant of the
machine it gives, of which the reset state is the one with the test machine's parameters and no image.
-/

namespace Sys2Proof.Machine

theorem boot_badSize {p : Params} (image : List Byte) (h : p.memSize < minMem ∨ p.memSize > maxMem) :
    boot p image = .error .badMemorySize := if_pos h

section
variable {p : Params} {image : List Byte} (hlo : minMem ≤ p.memSize) (hhi : p.memSize ≤ maxMem)
include hlo hhi

theorem boot_oddImage (h : image.length % 2 = 1) : boot p image = .error .oddImage := by
  unfold boot
  rw [if_neg (by omega), if_pos (by omega)]

theorem boot_tooLarge (heven : image.length % 2 = 0) (h : p.memSize < loadBase.toNat + image.length) :
    boot p image = .error .imageTooLarge := by
  unfold boot
  rw [if_neg (by omega), if_neg (by omega), if_pos h]

theorem boot_loads (heven : image.length % 2 = 0) (h : loadBase.toNat + image.length ≤ p.memSize) :
    boot p image = .ok { State.initial p with mem := Memory.load [] loadBase.toNat image } := by
  unfold boot
  rw [if_neg (by omega), if_neg (by omega), if_neg (by omega)]

end

/-- Whatever boots was within the bounds and holds the image (R270). -/
theorem boot_eq_ok {p : Params} {image : List Byte} {s : State} (h : boot p image = .ok s) :
    loadBase.toNat + image.length ≤ p.memSize ∧
      s = { State.initial p with mem := Memory.load [] loadBase.toNat image } := by
  unfold boot at h
  split at h
  · cases h
  split at h
  · cases h
  split at h <;> cases h
  next hin => exact ⟨Nat.le_of_not_lt hin, rfl⟩

theorem Memory.wf_nil : Memory.wf [] := ⟨List.Pairwise.nil, nofun⟩

/-- The initial state with any canonical memory inside its size meets the invariant. -/
theorem initial_invariant {p : Params} (hp : p.valid) {m : Memory} (hwf : Memory.wf m)
    (hin : Memory.within p.memSize m) : Invariant { State.initial p with mem := m } where
  memWf := hwf
  memWithin := hin
  params := hp
  ipEven := (by decide : loadBase.toNat % 2 = 0)
  handshake := iff_of_true rfl rfl
  queue := Nat.zero_le 1
  condition := .inl rfl
  haltedQuiet := nofun

/-- Settles O50: the four cases of `boot`; the bytes by `Memory.read_load`. -/
theorem bootLoadsOrRefuses : Obligations.BootLoadsOrRefuses := by
  refine fun p image => ⟨boot_badSize image, fun hlo hhi => ⟨boot_oddImage hlo hhi, boot_tooLarge hlo hhi,
    fun heven hin => ⟨_, boot_loads hlo hhi heven hin, fun a => ?_⟩⟩⟩
  exact Memory.read_load image [] 0x600 a Memory.wf_nil

/-- Settles O52: the load keeps the empty memory canonical and inside its size. -/
theorem bootMeetsInvariant : Obligations.BootMeetsInvariant := by
  intro p image s hp h
  obtain ⟨hin, rfl⟩ := boot_eq_ok h
  exact initial_invariant hp (Memory.load_wf image [] _ Memory.wf_nil)
    (Memory.load_within p.memSize image [] _ nofun hin)

/-- Settles O49: the fields of the reset state, one by one. -/
theorem resetValues : Obligations.ResetValues :=
  ⟨rfl, rfl, rfl, rfl, rfl, rfl, rfl, rfl, rfl, rfl, rfl, fun _ => rfl, rfl⟩

/-- Settles O51: the reset state is the initial one of the test machine, with the empty memory. -/
theorem resetMeetsInvariant : Obligations.ResetMeetsInvariant :=
  initial_invariant (p := Params.testMachine) (by decide) Memory.wf_nil nofun

end Sys2Proof.Machine
end
